-- ==== Sys2Proof/Word.lean ====
section
/-! DEFINITION. The words that the ports carry and their widths (rules R5, R45, R48, R51). A signed word stands
for the integer `BitVec.toInt` of it, two's complement (rule R6; log 16). -/

namespace Sys2Proof

/-- One byte of a configuration value or of a serialised word (rules R32, R35). -/
abbrev Byte := BitVec 8

/-- A signed 32-bit operand or result (rules R5, R46). -/
abbrev Word := BitVec 32

/-- The 64-bit signed intermediate of the datapath (rule R5). -/
abbrev Acc := BitVec 64

/-- The request word `REQ` (rule R45). -/
abbrev ReqWord := BitVec 128

/-- The response word `RSP` (rule R48). -/
abbrev RspWord := BitVec 64

/-- The diagnostic event word `EVT` (rule R51). -/
abbrev EvtWord := BitVec 98

end Sys2Proof
end

