-- ==== Sys2Proof/Config.lean ====
section
/-! DEFINITION. What is fixed for one machine and what the spec leaves open (rules R5, R24; U1, U5). Every
constant here has no body: a theorem about the model holds for every value of it. -/

namespace Sys2Proof

/-- The two settings of the parameter `RANGE_CHECK` (rule R5). -/
inductive RangeCheck where
  /-- The source's debug build: a result that does not fit raises `RangeAssertionFailure`. -/
  | checked
  /-- The source's optimised build: the case is undefined and is treated as the same fault (U1, D8; log 9). -/
  | unchecked
  deriving DecidableEq, Repr, Inhabited

/-- `RANGE_CHECK`, open in the spec (rule R5, D8; log 9). -/
opaque Config.rangeCheck : RangeCheck

/-- One less than the number of requesters (rule R5, D23; log 10). -/
opaque Config.furtherRequesters : Nat

/-- `N_REQ`, the number of requesters, a positive integer (rule R5, D23; log 10). -/
def Config.nReq : Nat := Config.furtherRequesters + 1

/-- FREE VALUE: the `result` bits of the `n`-th response when its status is not OK (rule R48, U5; log 12). -/
opaque Config.unspecifiedResult : Nat → Word

end Sys2Proof
end

