-- ==== Sys2Proof/Syntax.lean ====
section
/-! DEFINITION. The six operations (rule R47), why a request word is refused (rules R36, R50), the configuration
source's keys and answers (rule R32), and the assembler's lines and directives (rules R53, R54). -/

namespace Sys2Proof

/-- One request, decoded. The operands are the three 32-bit fields as received (rules R45, R46). -/
inductive Instr where
  /-- `APPLY x, multiplier, shift` (rule R95). -/
  | apply (x multiplier shift : Word)
  /-- `SCALE_SINGLE x, multiplier, shift` (rule R62). -/
  | scaleSingle (x multiplier shift : Word)
  /-- `SCALE_RTE x, multiplier, shift` (rule R79). -/
  | scaleRte (x multiplier shift : Word)
  /-- `SCALE_RTE_INTENT x, multiplier, shift` (rule R80). -/
  | scaleRteIntent (x multiplier shift : Word)
  /-- `RESOLVE_POLICY` (rule R87): the operand fields are ignored, so the request has none (rule R46). -/
  | resolvePolicy
  /-- `RESOLVE_DIAG` (rule R90): the operand fields are ignored. -/
  | resolveDiag
  deriving DecidableEq, Repr

/-- Why bits spell no operation. -/
inductive DecodeError where
  /-- A bit of `REQ[127:99]` is set (rule R50). -/
  | reservedBits
  /-- `op` is 6 or 7 (rule R50). -/
  | reservedOp (op : BitVec 3)
  /-- Fewer than 16 bytes: "a partial request word is not a request" (rule R36). -/
  | partialRequest (bytes : Nat)
  deriving DecidableEq, Repr

/-- The two configuration keys (rule R32). -/
inductive CfgKey where
  /-- Key 0, the rounding-mode selector. -/
  | roundingMode
  /-- Key 1, the diagnostics-enable flag. -/
  | diagnosticsEnable
  deriving DecidableEq, Repr

/-- The answer to one `CfgLookup` (rule R32). -/
inductive CfgAnswer where
  /-- The setting does not exist. -/
  | absent
  /-- The setting exists; its value is the bytes in reading order, none of them being the empty value. -/
  | present (bytes : List Byte)
  deriving DecidableEq, Repr

/-! ### The assembler's source (rules R53, R54) -/

/-- An operand as it may be written in a line (rule R53). -/
inductive AsmOperand where
  /-- A decimal integer, optionally negative. -/
  | dec (value : Int)
  /-- A `0x` pattern of 32 bits, read as two's complement. -/
  | hex (pattern : Nat)
  /-- The expression `1<<n`. -/
  | oneShl (n : Nat)
  /-- `INT32_MAX`. -/
  | int32Max
  /-- `INT32_MIN`. -/
  | int32Min
  deriving DecidableEq, Repr

/-- A line that is one request (rule R53). -/
inductive AsmLine where
  | apply (x multiplier shift : AsmOperand)
  | scaleSingle (x multiplier shift : AsmOperand)
  | scaleRte (x multiplier shift : AsmOperand)
  | scaleRteIntent (x multiplier shift : AsmOperand)
  | resolvePolicy
  | resolveDiag
  deriving DecidableEq, Repr

/-- A directive (rule R54). -/
inductive AsmDirective where
  /-- `.reset` -/
  | reset
  /-- `.cfg k, absent` (`none`) or `.cfg k, "text"` (`some text`). -/
  | cfg (key : CfgKey) (text : Option (List Char))
  /-- `.param RANGE_CHECK, checked` or `unchecked`. -/
  | param (rangeCheck : RangeCheck)
  deriving DecidableEq, Repr

/-- One item of a source text: a request or a directive, with what its label says (rules R53, R54). -/
inductive AsmItem where
  /-- A request line; `requester` is the `n` of a label `r<n>:`, 0 without one (log 20). -/
  | request (requester : Nat) (line : AsmLine)
  /-- A directive; `hosted` says that a label `host:` marks it as not ordered with the requests. -/
  | directive (hosted : Bool) (d : AsmDirective)
  deriving DecidableEq, Repr

end Sys2Proof
end

