-- ==== Sys2Proof/WellFormed.lean ====
section
/-! DEFINITION. Well-formedness of source items (rules R53, R54). A term of `Instr` needs no check of its own: its
operands are 32-bit words, every one of which is encodable (rule R46), so each term spells a request. A source
line can be ill formed: an operand outside the signed 32-bit range, a pattern wider than 32 bits, a text that is
not ASCII, a requester that does not exist. -/

namespace Sys2Proof

/-- The integer that a written operand stands for (rule R53; a pattern is two's complement, rule R6). -/
def AsmOperand.value : AsmOperand → Int
  | .dec v => v
  | .hex p => if p < 2147483648 then (p : Int) else (p : Int) - 4294967296
  | .oneShl n => ((1 <<< n : Nat) : Int)
  | .int32Max => 2147483647
  | .int32Min => -2147483648

/-- A `0x` operand is a pattern of 32 bits (rule R53). -/
def AsmOperand.patternFits : AsmOperand → Bool
  | .dec _ => true
  | .hex p => decide (p < 4294967296)
  | .oneShl _ => true
  | .int32Max => true
  | .int32Min => true

/-- "Each must lie in [-2147483648, 2147483647]" (rule R53). -/
def AsmOperand.wf (o : AsmOperand) : Bool :=
  o.patternFits && decide (-2147483648 ≤ o.value) && decide (o.value ≤ 2147483647)

/-- Every operand of the line is well formed. -/
def AsmLine.wf : AsmLine → Bool
  | .apply x m sh => x.wf && m.wf && sh.wf
  | .scaleSingle x m sh => x.wf && m.wf && sh.wf
  | .scaleRte x m sh => x.wf && m.wf && sh.wf
  | .scaleRteIntent x m sh => x.wf && m.wf && sh.wf
  | .resolvePolicy => true
  | .resolveDiag => true

/-- A quoted text is ASCII (rule R54). -/
def AsmDirective.wf : AsmDirective → Bool
  | .reset => true
  | .cfg _ none => true
  | .cfg _ (some text) => text.all fun c => decide (c.toNat < 128)
  | .param _ => true

/-- An item is well formed for a block with `nReq` requesters (rules R53, R54, R116). -/
def AsmItem.wf (nReq : Nat) : AsmItem → Bool
  | .request r line => decide (r < nReq) && line.wf
  | .directive _ d => d.wf

end Sys2Proof
end

