-- ==== Sys2Proof/Decode.lean ====
section
/-! DEFINITION. The decoder, total on any request word and on any bytes, rejecting by name (rules R45 to R47, R50);
the little-endian byte form of a word (rule R35); the encoder (rules R45, R53). -/

namespace Sys2Proof

/-! ### The fields of `REQ` (rule R45) -/

/-- `x = REQ[31:0]` -/
def xField (w : ReqWord) : Word := w.extractLsb' 0 32

/-- `multiplier = REQ[63:32]` -/
def multiplierField (w : ReqWord) : Word := w.extractLsb' 32 32

/-- `shift = REQ[95:64]` -/
def shiftField (w : ReqWord) : Word := w.extractLsb' 64 32

/-- `op = REQ[98:96]` -/
def opField (w : ReqWord) : BitVec 3 := w.extractLsb' 96 3

/-- `rsv = REQ[127:99]` -/
def rsvField (w : ReqWord) : BitVec 29 := w.extractLsb' 99 29

/-- The operation that a request word spells (rules R46, R47), or why it spells none (rule R50). -/
def decode (w : ReqWord) : Except DecodeError Instr :=
  if rsvField w = 0#29 then
    match (opField w).toNat with
    | 0 => .ok (.apply (xField w) (multiplierField w) (shiftField w))
    | 1 => .ok (.scaleSingle (xField w) (multiplierField w) (shiftField w))
    | 2 => .ok (.scaleRte (xField w) (multiplierField w) (shiftField w))
    | 3 => .ok (.scaleRteIntent (xField w) (multiplierField w) (shiftField w))
    | 4 => .ok .resolvePolicy
    | 5 => .ok .resolveDiag
    | _ => .error (.reservedOp (opField w))
  else .error .reservedBits

/-! ### Byte order (rule R35) -/

/-- The `n` low bytes of `w`, byte 0 (bits 7:0) first. -/
def bytesOf : Nat → Nat → List Byte
  | 0, _ => []
  | n + 1, w => BitVec.ofNat 8 w :: bytesOf n (w / 256)

/-- The number whose bytes, byte 0 first, are `bs`. -/
def natOfBytes : List Byte → Nat
  | [] => 0
  | b :: bs => b.toNat + 256 * natOfBytes bs

/-- Decode a serialised request from the front of a byte sequence: the operation and the rest (rules R35, R36). -/
def decodeBytes (bs : List Byte) : Except DecodeError (Instr × List Byte) :=
  if bs.length < 16 then .error (.partialRequest bs.length)
  else
    match decode (BitVec.ofNat 128 (natOfBytes (bs.take 16))) with
    | .ok i => .ok (i, bs.drop 16)
    | .error e => .error e

/-- The host's question: the operation read from the request whose bits are the low `nbits` bits of `w`, every
bit above them 0, laid out as 16 bytes. A row of more than 128 bits would be no request (log 21). -/
def decodeTableWord (nbits w : Nat) : Option Instr :=
  if nbits ≤ 128 then
    match decodeBytes (bytesOf 16 (w % 2 ^ nbits)) with
    | .ok (i, _) => some i
    | .error _ => none
  else none

/-! ### The encoder -/

/-- The operation code (rule R47). -/
def Instr.op : Instr → BitVec 3
  | .apply .. => 0#3
  | .scaleSingle .. => 1#3
  | .scaleRte .. => 2#3
  | .scaleRteIntent .. => 3#3
  | .resolvePolicy => 4#3
  | .resolveDiag => 5#3

/-- The `mask` of every row of the operation table: the `op` and `rsv` fields (rule R47). -/
def opMask : ReqWord := 0xFFFFFFFF000000000000000000000000#128

/-- The `match` of an operation's row: `op << 96` (rule R47). -/
def Instr.opMatch (i : Instr) : ReqWord := i.op.setWidth 128 <<< 96

/-- A request word from its fields, the reserved field zero (rule R45). -/
def pack (op : BitVec 3) (x multiplier shift : Word) : ReqWord :=
  0#29 ++ op ++ shift ++ multiplier ++ x

/-- The request word of an operation; the two `RESOLVE_*` assemble with zero operand fields (rule R53). -/
def encode : Instr → ReqWord
  | .apply x m sh => pack 0#3 x m sh
  | .scaleSingle x m sh => pack 1#3 x m sh
  | .scaleRte x m sh => pack 2#3 x m sh
  | .scaleRteIntent x m sh => pack 3#3 x m sh
  | .resolvePolicy => pack 4#3 0#32 0#32 0#32
  | .resolveDiag => pack 5#3 0#32 0#32 0#32

/-- The serialised request of an operation (rule R35). -/
def encodeBytes (i : Instr) : List Byte := bytesOf 16 (encode i).toNat

/-! ### Assembling a line (rule R53) -/

/-- The operand field of a written operand, `u32(v) = v mod 2^32` (rule R53). -/
def AsmOperand.word (o : AsmOperand) : Word := BitVec.ofInt 32 o.value

/-- The request that a line stands for. -/
def AsmLine.instr : AsmLine → Instr
  | .apply x m sh => .apply x.word m.word sh.word
  | .scaleSingle x m sh => .scaleSingle x.word m.word sh.word
  | .scaleRte x m sh => .scaleRte x.word m.word sh.word
  | .scaleRteIntent x m sh => .scaleRteIntent x.word m.word sh.word
  | .resolvePolicy => .resolvePolicy
  | .resolveDiag => .resolveDiag

/-- The request word of a line, refused if an operand is out of range. -/
def AsmLine.assemble (l : AsmLine) : Option ReqWord :=
  if l.wf then some (encode l.instr) else none

/-- The bytes that a quoted text stands for (rule R54: ASCII; log 16). -/
def asciiBytes (text : List Char) : List Byte := text.map fun c => BitVec.ofNat 8 c.toNat

end Sys2Proof
end

