-- ==== Sys2Proof/Machine/State.lean ====
section
/-! DEFINITION. The state: the block's three registers (rule R19), and beside them, as plain data, what stands at
its three ports (rules R31, R32, R34): the answers the configuration source holds, the inputs still to take
effect, and the three output histories. The block has no memory, no program counter and no other register
(rules R15 to R18, R30; log 15). -/

namespace Sys2Proof.Machine

/-- The two fatal exceptions (rule R105). -/
inductive Exception where
  /-- Code 1: an operand breaks a precondition of the selected scaler (rule R106). -/
  | preconditionViolation
  /-- Code 2: the 64-bit result does not fit the signed 32-bit range (rule R107). -/
  | rangeAssertionFailure
  deriving DecidableEq, Repr

/-- The two rounding policies (rule R20). -/
inductive Policy where
  | singleRounding
  | roundToEven
  deriving DecidableEq, Repr

/-- `REG.POLICY`: three held values, code 3 cannot be written down (rule R20, U4). -/
inductive PolicyReg where
  | unresolved
  | resolved (p : Policy)
  deriving DecidableEq, Repr

/-- `REG.DIAG`: unresolved, OFF (`resolved false`) or ON (`resolved true`) (rule R22, U4). -/
inductive DiagReg where
  | unresolved
  | resolved (on : Bool)
  deriving DecidableEq, Repr

/-- `REG.FAULT`, the sticky latch: NONE or the cause of the exception that stopped the block (rule R21, U4). -/
inductive FaultReg where
  | none
  | cause (e : Exception)
  deriving DecidableEq, Repr

/-- A diagnostic event (rule R34). -/
inductive Event where
  | before (x multiplier shift : Word)
  | after (result : Word)
  | warning
  deriving DecidableEq, Repr

/-- A response: a result, or an exception and then no result at all (rules R48, R49, U5). -/
inductive Response where
  | ok (result : Word)
  | exception (e : Exception)
  deriving DecidableEq, Repr

/-- Something from outside that takes effect between two operations (rules R31, R33, R125; log 1). -/
inductive Input where
  /-- Requester `requester` hands over the request word `word`. -/
  | request (requester : Nat) (word : ReqWord)
  /-- The host changes a setting of the configuration source (rule R33). -/
  | setCfg (key : CfgKey) (answer : CfgAnswer)
  /-- The host asserts reset (rule R125). -/
  | reset
  deriving DecidableEq, Repr

/-- The whole state. The first three fields are the block's architectural state (rule R19); the others are the
model's own record of its ports (rule R24; logs 1, 3, 4, 5). -/
structure State where
  /-- `REG.POLICY`, the memoized rounding policy (rule R20). -/
  policy : PolicyReg
  /-- `REG.DIAG`, the memoized diagnostic flag (rule R22). -/
  diag : DiagReg
  /-- `REG.FAULT`, the fault latch (rule R21). -/
  fault : FaultReg
  /-- What the configuration source answers to a lookup of key 0 now: a FREE INPUT (rule R32, U9; log 3). -/
  cfgMode : CfgAnswer
  /-- The same for key 1. -/
  cfgDiag : CfgAnswer
  /-- The inputs still to take effect, first to happen first (rule R39; log 1). -/
  inputs : List Input
  /-- The requester whose request stands at the port; only the response's routing uses it (rule R31; log 5). -/
  client : Nat
  /-- Every `CfgLookup` issued, with its answer, oldest first (rule R32; log 4). -/
  lookups : List (CfgKey × CfgAnswer)
  /-- What the diagnostic sink has received, oldest first (rule R34; log 4). -/
  events : List Event
  /-- Every response given and to whom, oldest first (rule R31; log 4). -/
  responses : List (Nat × Response)
  deriving DecidableEq, Repr

/-- The machine right after reset: all three registers 0 (rules R25, R126). The ports' fields are the model's
choice: the spec gives them no value at power-on (logs 1, 3, 4, 5). -/
def State.reset : State :=
  { policy := .unresolved
    diag := .unresolved
    fault := .none
    cfgMode := .absent
    cfgDiag := .absent
    inputs := []
    client := 0
    lookups := []
    events := []
    responses := [] }

/-- Why the machine stops with a fault. -/
inductive Fault where
  /-- Raised by the meaning of every operation, and by `step` with no input pending, when `REG.FAULT` holds `e`: the
  block accepts no request and has no enabled step until reset (rule R111, D7). SAFE: no claim can be proved about a
  run past it (log 7). -/
  | latched (e : Exception)
  deriving DecidableEq, Repr

/-- Why the machine refuses. -/
inductive Refusal where
  /-- Raised by `exec` for an operation without a meaning; no arm of this model does. SAFE. -/
  | notModelled (mnemonic : String)
  /-- Raised by `step` for a request word that spells no operation (rule R50, D24, U6). SAFE: the run stops, the
  state is as it was (log 8). -/
  | reservedEncoding (e : DecodeError)
  deriving DecidableEq, Repr

/-- What one transition answers. -/
abbrev Result := Host.Outcome State Fault Refusal

/-- What stands at the front of the inputs, and the state once it is taken. -/
inductive Fetched where
  /-- Nothing is pending: the block waits (log 6), or stays stopped (rule R111). -/
  | idle (s : State)
  /-- The host acted; no operation runs (rules R33, R125). -/
  | hosted (s : State)
  /-- A request was taken and decodes to `i`. -/
  | operation (i : Instr) (s : State)
  /-- The request word spells no operation (rule R50). -/
  | invalid (e : DecodeError)
  deriving DecidableEq, Repr

end Sys2Proof.Machine
end

