-- ==== Sys2Proof/Machine/Ops.lean ====
section
/-! DEFINITION. The shared operations over the state: one setter per field, the configuration lookup (rule R32), the
event (rule R34), the response (rules R31, R48), exception entry (rule R110), the stopped block (rule R111), and
reset, the only way out of it (rules R114, R125). -/

namespace Sys2Proof.Machine

/-! ### Writing one field -/

def State.setPolicy (s : State) (p : PolicyReg) : State := { s with policy := p }
def State.setDiag (s : State) (d : DiagReg) : State := { s with diag := d }
def State.setFault (s : State) (f : FaultReg) : State := { s with fault := f }
def State.setInputs (s : State) (l : List Input) : State := { s with inputs := l }
def State.setClient (s : State) (r : Nat) : State := { s with client := r }
def State.pushLookup (s : State) (k : CfgKey) (a : CfgAnswer) : State :=
  { s with lookups := s.lookups ++ [(k, a)] }
def State.pushEvent (s : State) (e : Event) : State := { s with events := s.events ++ [e] }
def State.pushResponse (s : State) (r : Response) : State :=
  { s with responses := s.responses ++ [(s.client, r)] }

/-! ### The configuration source port (rules R32, R33) -/

/-- What the configuration source holds under a key. -/
def State.cfg (s : State) : CfgKey → CfgAnswer
  | .roundingMode => s.cfgMode
  | .diagnosticsEnable => s.cfgDiag

/-- The host changes a setting (rule R33). -/
def State.setCfg (s : State) : CfgKey → CfgAnswer → State
  | .roundingMode, a => { s with cfgMode := a }
  | .diagnosticsEnable, a => { s with cfgDiag := a }

/-- `CfgLookup(k)`: the answer, and the lookup recorded. It has no side effect on the source (rule R32). -/
def cfgLookup (k : CfgKey) (s : State) : CfgAnswer × State :=
  (s.cfg k, s.pushLookup k (s.cfg k))

/-! ### Events and responses -/

/-- `Emit(e)` (rule R34). -/
def emit (e : Event) (s : State) : State := s.pushEvent e

/-- `Emit(e)` under a condition. -/
def emitIf (b : Bool) (e : Event) (s : State) : State := if b then emit e s else s

/-- `Respond(OK, r)`: the response goes to the requester that sent the request (rules R7, R31). -/
def respondOk (r : Word) (s : State) : State := s.pushResponse (.ok r)

/-! ### Exceptions -/

/-- `raise e`, exception entry: `REG.FAULT` takes the cause, the response carries it and no result, and everything
done before the raise is kept (rule R110). Nothing else is saved and control goes nowhere. -/
def raise (e : Exception) (s : State) : State :=
  (s.setFault (.cause e)).pushResponse (.exception e)

/-- How an operation ends: with its result, or by raising. -/
def conclude (r : Except Exception Word) (s : State) : State :=
  match r with
  | .ok v => respondOk v s
  | .error e => raise e s

/-- "if REG.FAULT != NONE: no step": the first line of every operation, and of a step that takes no input
(rules R111, R135, D7; log 7). -/
def unlessFaulted (s : State) (k : State → Result) : Result :=
  match s.fault with
  | .none => k s
  | .cause e => .fault (.latched e)

/-- The reset event (rules R125, R126). There is no return from an exception: this is the only way out of a fault
(rule R114). The configuration source's content and the histories are not touched (rule R126), and requests not
yet performed stay pending (U7; log 13). -/
def hostReset (s : State) : State :=
  ((s.setPolicy .unresolved).setDiag .unresolved).setFault .none

end Sys2Proof.Machine
end

