-- ==== Sys2Proof/Machine/Words.lean ====
section
/-! DEFINITION. The bit forms: register codes (rules R20 to R22), cause and status codes (rules R49, R105), the
response word (rule R48), the event word (rule R51), the configuration words (rule R52), and the serialised response
(rule R35). -/

namespace Sys2Proof.Machine

/-- The cause and status code of an exception (rules R49, R105). -/
def Exception.code : Exception → BitVec 2
  | .preconditionViolation => 1#2
  | .rangeAssertionFailure => 2#2

/-- The code of `REG.POLICY` (rule R20). -/
def PolicyReg.code : PolicyReg → BitVec 2
  | .unresolved => 0#2
  | .resolved .singleRounding => 1#2
  | .resolved .roundToEven => 2#2

/-- The code of `REG.DIAG` (rule R22). -/
def DiagReg.code : DiagReg → BitVec 2
  | .unresolved => 0#2
  | .resolved false => 1#2
  | .resolved true => 2#2

/-- The code of `REG.FAULT` (rule R21). -/
def FaultReg.code : FaultReg → BitVec 2
  | .none => 0#2
  | .cause e => e.code

/-- `RSP.status` (rule R49). -/
def Response.status : Response → BitVec 2
  | .ok _ => 0#2
  | .exception e => e.code

/-- `RSP.result` of the `n`-th response; on an exception its bits are unspecified, a free value (rule R48, U5;
log 12). -/
def Response.resultBits (n : Nat) : Response → Word
  | .ok r => r
  | .exception _ => Config.unspecifiedResult n

/-- The response word `RSP` of the `n`-th response (rule R48). -/
def Response.word (n : Nat) (r : Response) : RspWord := 0#30 ++ r.status ++ r.resultBits n

/-- The serialised response, little-endian (rule R35). -/
def Response.bytes (n : Nat) (r : Response) : List Byte := bytesOf 8 (r.word n).toNat

/-- The response words given so far, oldest first. -/
def State.responseWords (s : State) : List RspWord :=
  s.responses.mapIdx fun n p => p.2.word n

/-- The event word `EVT` (rule R51). -/
def Event.word : Event → EvtWord
  | .before x m sh => 0#2 ++ sh ++ m ++ x
  | .after r => 1#2 ++ 0#32 ++ 0#32 ++ r
  | .warning => 2#2 ++ 0#32 ++ 0#32 ++ 0#32

/-- The lookup request, one bit (rule R52). -/
def keyBit : CfgKey → BitVec 1
  | .roundingMode => 0#1
  | .diagnosticsEnable => 1#1

/-- The answer of the configuration source on its port: a presence bit, and when it is 1 a length and that many
bytes in reading order. The width of the length is not fixed (rule R52). -/
structure AnswerWord where
  present : BitVec 1
  len : Nat
  bytes : List Byte
  deriving DecidableEq, Repr

/-- The answer's port form (rule R52). -/
def answerWord : CfgAnswer → AnswerWord
  | .absent => { present := 0#1, len := 0, bytes := [] }
  | .present bs => { present := 1#1, len := bs.length, bytes := bs }

/-- Reading the port form; a length that does not count the bytes is no answer (rule R52). -/
def readAnswer (w : AnswerWord) : Option CfgAnswer :=
  if w.present = 0#1 then some .absent
  else if w.len = w.bytes.length then some (.present w.bytes)
  else none

end Sys2Proof.Machine
end

