-- ==== Sys2Proof/Machine/Resolve.lean ====
section
/-! DEFINITION. The policy selector and the diagnostic flag: classification (rules R85, R88), the two resolving steps
(rules R86, R89) and the two operations that expose them (rules R87, R90). -/

namespace Sys2Proof.Machine

/-- The recognised value "EV": the bytes 0x45 0x56 (rules R32, R85, D12; log 19). -/
def evenValue : List Byte := [0x45#8, 0x56#8]

/-- The policy that the answer to key 0 selects, and whether it is warned about (rule R85). -/
def classifyMode : CfgAnswer → Policy × Bool
  | .absent => (.singleRounding, false)
  | .present bytes =>
    if bytes = [] then (.singleRounding, false)
    else if bytes = evenValue then (.roundToEven, false)
    else (.singleRounding, true)

/-- Whether the answer to key 1 enables diagnostics: present and not empty, whatever the bytes (rule R88). -/
def classifyDiag : CfgAnswer → Bool
  | .absent => false
  | .present bytes => !bytes.isEmpty

/-- `resolve_policy`: the policy and the state, looked up and written only while unresolved (rules R86, R92). -/
def resolvePolicy (s : State) : Policy × State :=
  match s.policy with
  | .resolved p => (p, s)
  | .unresolved =>
    let found := cfgLookup .roundingMode s
    let chosen := classifyMode found.1
    (chosen.1, emitIf chosen.2 .warning (found.2.setPolicy (.resolved chosen.1)))

/-- `resolve_diag`: the flag and the state, looked up and written only while unresolved (rule R89). -/
def resolveDiag (s : State) : Bool × State :=
  match s.diag with
  | .resolved on => (on, s)
  | .unresolved =>
    let found := cfgLookup .diagnosticsEnable s
    let on := classifyDiag found.1
    (on, found.2.setDiag (.resolved on))

/-- The result of `RESOLVE_POLICY`, `zext_32(REG.POLICY)`: 1 or 2 (rules R48, R87). -/
def policyAnswer (p : Policy) : Word := (PolicyReg.resolved p).code.setWidth 32

/-- The result of `RESOLVE_DIAG`: 1 if the flag is ON, 0 if OFF (rules R48, R90). -/
def diagAnswer (on : Bool) : Word := if on then 1#32 else 0#32

/-- `RESOLVE_POLICY` (rule R87). -/
def execResolvePolicy (s : State) : Result :=
  unlessFaulted s fun s =>
    let r := resolvePolicy s
    .next (respondOk (policyAnswer r.1) r.2)

/-- `RESOLVE_DIAG` (rule R90). -/
def execResolveDiag (s : State) : Result :=
  unlessFaulted s fun s =>
    let r := resolveDiag s
    .next (respondOk (diagAnswer r.1) r.2)

end Sys2Proof.Machine
end

