-- ==== Sys2Proof/Machine/Flags.lean ====
section
/-! DEFINITION. The block has no flag and no condition code (rule R17). What decides an operation's outcome beside
its operands is the range check (rules R13, R65, R78), which stands here. -/

namespace Sys2Proof.Machine

/-- `fits32(v)`: `INT32_MIN <= v <= INT32_MAX` (rule R7). -/
def fits32 (v : Int) : Bool := decide (-2147483648 ≤ v) && decide (v ≤ 2147483647)

/-- `narrow_32(v)`: the signed 32-bit word of the same integer. The spec defines it only where `fits32 v` (rule R7),
and the operations use it only there (rules R13, R65, R76, R78). -/
def narrow32 (v : Int) : Word := BitVec.ofInt 32 v

/-- What a result that does not fit raises. `RANGE_CHECK` is an argument, and both its settings give the same fault:
under `unchecked` the case is undefined and is never a value (rules R65, R107, U1, D8; log 9). -/
def rangeFailure (_rangeCheck : RangeCheck) : Exception := .rangeAssertionFailure

/-- Steps 6 and 7 of `scale_single`: narrow a result that fits, otherwise raise (rule R65). -/
def checkedNarrow (rangeCheck : RangeCheck) (v : Int) : Except Exception Word :=
  if fits32 v then .ok (narrow32 v) else .error (rangeFailure rangeCheck)

end Sys2Proof.Machine
end

