-- ==== Sys2Proof/Machine/Operands.lean ====
section
/-! DEFINITION. The operands: what integer each field stands for, what is derived from it, and the preconditions
(rules R46, R60, R61, R74, R77). The three fields are the only operand form of the block: there are no immediates,
registers or addressing modes (rules R46, R99). -/

namespace Sys2Proof.Machine

/-- `total_shift = 31 - shift` (rule R61 step 1), in [24, 62] for a legal shift. -/
def totalShift (shift : Word) : Nat := (31 - shift.toInt).toNat

/-- The precondition of `scale_single` and of the intent form: `multiplier >= 0` and `-31 <= shift <= 7`
(rules R60, R77), on the full signed value of each field. -/
def legalForSingle (multiplier shift : Word) : Bool :=
  decide (0 ≤ multiplier.toInt) && decide (-31 ≤ shift.toInt) && decide (shift.toInt ≤ 7)

/-- The precondition of the literal form: `multiplier >= 0`, `-31 <= shift <= 7` and `shift >= 1` (rule R74). -/
def legalForLiteral (multiplier shift : Word) : Bool :=
  legalForSingle multiplier shift && decide (1 ≤ shift.toInt)

/-- `x_64 * multiplier_64`, exact (rule R9). -/
def exactProduct (x multiplier : Word) : Int := x.toInt * multiplier.toInt

end Sys2Proof.Machine
end

