-- ==== Sys2Proof/Machine/Scale.lean ====
section
/-! DEFINITION. Strategy A (rules R60 to R67), the primitive `round_to_even` (rules R71, R72), Strategy B in its
literal and its intent form (rules R74 to R78), and the three direct operations (rules R62, R79, R80). The arithmetic
is over unbounded integers, which rules R63 and R73 show equal to 64-bit arithmetic here (rule R7; log 11);
Machine/Datapath.lean holds the 64-bit form. -/

namespace Sys2Proof.Machine

/-- `v >> n`, the arithmetic right shift (rules R7, R11). -/
def asr (v : Int) (n : Nat) : Int := v >>> n

/-- `1 << n` (rules R7, R12). -/
def oneShl (n : Nat) : Int := ((1 <<< n : Nat) : Int)

/-! ### Strategy A -/

/-- `round_constant = 1 << (total_shift - 1)` (rule R61 step 3). -/
def roundConstant (shift : Word) : Int := oneShl (totalShift shift - 1)

/-- The source's `product`, the product plus the round constant (rule R61 step 4). -/
def biasedProduct (x multiplier shift : Word) : Int := exactProduct x multiplier + roundConstant shift

/-- `result_64 = product >> total_shift` (rule R61 step 5). -/
def singleResult64 (x multiplier shift : Word) : Int :=
  asr (biasedProduct x multiplier shift) (totalShift shift)

/-- `scale_single` (rules R60, R61, R65). -/
def scaleSingle (rangeCheck : RangeCheck) (x multiplier shift : Word) : Except Exception Word :=
  if legalForSingle multiplier shift then checkedNarrow rangeCheck (singleResult64 x multiplier shift)
  else .error .preconditionViolation

/-! ### The primitive -/

/-- `bit = (value >> amount) & 1`, 0 or 1 (rules R7, R71). -/
def evenBit (value : Int) (amount : Nat) : Int := asr value amount % 2

/-- `bias = (1 << (amount - 1)) - 1` (rule R71). -/
def evenBias (amount : Nat) : Int := oneShl (amount - 1) - 1

/-- `value + bit + bias`, the sum that is shifted (rule R71). -/
def evenSum (value : Int) (amount : Nat) : Int := value + evenBit value amount + evenBias amount

/-- `round_to_even(value, amount)` over unbounded integers (rule R71; outside `roundToEvenDefined` the spec defines
nothing and no operation calls it there, rule R73, U3; log 11). -/
def roundToEven (value : Int) (amount : Nat) : Except Exception Int :=
  if 1 ≤ amount then .ok (asr (evenSum value amount) amount) else .error .preconditionViolation

/-- `v` is a signed 64-bit value (rule R6). -/
def fits64 (v : Int) : Bool :=
  decide (-9223372036854775808 ≤ v) && decide (v ≤ 9223372036854775807)

/-- The primitive's domain: an amount in [1, 63], and a value whose biased sum stays in 64 bits (rule R71, U3). -/
def roundToEvenDefined (value : Int) (amount : Nat) : Bool :=
  decide (1 ≤ amount) && decide (amount ≤ 63) && fits64 value && fits64 (evenSum value amount)

/-! ### Strategy B -/

/-- The literal form's `accumulator = sext_64(x) * shift`; the multiplier is not used (rule R75). -/
def literalAccumulator (x shift : Word) : Int := x.toInt * shift.toInt

/-- `scale_rte_literal` (rules R74, R75); its result always fits (rule R76). -/
def scaleRteLiteral (x multiplier shift : Word) : Except Exception Word :=
  if legalForLiteral multiplier shift then
    (roundToEven (literalAccumulator x shift) shift.toInt.toNat).map narrow32
  else .error .preconditionViolation

/-- `scale_rte_intent` (rules R77, R78, D10, D11; log 18). -/
def scaleRteIntent (rangeCheck : RangeCheck) (x multiplier shift : Word) : Except Exception Word :=
  if legalForSingle multiplier shift then
    (roundToEven (exactProduct x multiplier) (totalShift shift)).bind (checkedNarrow rangeCheck)
  else .error .preconditionViolation

/-! ### The direct operations -/

/-- `SCALE_SINGLE` (rule R62). It reads and writes no register but the latch and emits nothing (rule R67). -/
def execScaleSingle (x multiplier shift : Word) (s : State) : Result :=
  unlessFaulted s fun s => .next (conclude (scaleSingle Config.rangeCheck x multiplier shift) s)

/-- `SCALE_RTE`, the literal form (rules R79, R82). -/
def execScaleRte (x multiplier shift : Word) (s : State) : Result :=
  unlessFaulted s fun s => .next (conclude (scaleRteLiteral x multiplier shift) s)

/-- `SCALE_RTE_INTENT` (rules R80, R82). -/
def execScaleRteIntent (x multiplier shift : Word) (s : State) : Result :=
  unlessFaulted s fun s => .next (conclude (scaleRteIntent Config.rangeCheck x multiplier shift) s)

end Sys2Proof.Machine
end

