-- ==== Sys2Proof/Machine/Apply.lean ====
section
/-! DEFINITION. The dispatcher, `APPLY` (rules R95 to R98). -/

namespace Sys2Proof.Machine

/-- Step 3 of `APPLY`: the scaler that a policy selects, never the intent form (rules R95, R96). -/
def scaleUnder (p : Policy) (x multiplier shift : Word) : Except Exception Word :=
  match p with
  | .singleRounding => scaleSingle Config.rangeCheck x multiplier shift
  | .roundToEven => scaleRteLiteral x multiplier shift

/-- Steps 4 and 5: the `AFTER` event and the response, or the exception and neither (rules R95, R98). -/
def finishApply (on : Bool) (r : Except Exception Word) (s : State) : State :=
  match r with
  | .ok v => respondOk v (emitIf on (.after v) s)
  | .error e => raise e s

/-- `APPLY` (rule R95): resolve the policy, resolve the flag, `BEFORE`, dispatch, `AFTER`, respond. -/
def execApply (x multiplier shift : Word) (s : State) : Result :=
  unlessFaulted s fun s =>
    let selected := resolvePolicy s
    let traced := resolveDiag selected.2
    let opened := emitIf traced.1 (.before x multiplier shift) traced.2
    .next (finishApply traced.1 (scaleUnder selected.1 x multiplier shift) opened)

end Sys2Proof.Machine
end

