-- ==== Sys2Proof/Machine/Dispatch.lean ====
section
/-! DEFINITION. One arm per operation of spec/opcode_table.json (rule R47). -/

namespace Sys2Proof.Machine

/-- The meaning of a decoded request. -/
def exec (i : Instr) (s : State) : Host.Outcome State Fault Refusal :=
  match i with
  | .apply x multiplier shift => Sys2Proof.Machine.execApply x multiplier shift s
  | .scaleSingle x multiplier shift => Sys2Proof.Machine.execScaleSingle x multiplier shift s
  | .scaleRte x multiplier shift => Sys2Proof.Machine.execScaleRte x multiplier shift s
  | .scaleRteIntent x multiplier shift => Sys2Proof.Machine.execScaleRteIntent x multiplier shift s
  | .resolvePolicy => Sys2Proof.Machine.execResolvePolicy s
  | .resolveDiag => Sys2Proof.Machine.execResolveDiag s

end Sys2Proof.Machine
end

