-- ==== Sys2Proof/Machine/Fetch.lean ====
section
/-! DEFINITION. Taking the next input: the block fetches no instruction (rules R16, R42); a requester hands it a whole
request word (rules R31, R36), or the host acts between two operations (rules R33, R125). -/

namespace Sys2Proof.Machine

/-- The state with a request at its port: the input is taken and its sender is the one to answer. -/
def accept (r : Nat) (rest : List Input) (s : State) : State := (s.setInputs rest).setClient r

/-- Take the first input (rule R39; logs 1, 6, 8). -/
def fetch (s : State) : Fetched :=
  match s.inputs with
  | [] => .idle s
  | .setCfg k a :: rest => .hosted ((s.setInputs rest).setCfg k a)
  | .reset :: rest => .hosted (hostReset (s.setInputs rest))
  | .request r w :: rest =>
    match decode w with
    | .ok i => .operation i (accept r rest s)
    | .error e => .invalid e

/-- The state with a request of requester 0 placed before every other input: its word is the low `nbits` bits of
`w`, every bit above them 0 (logs 2, 21). -/
def placeRequest (s : State) (nbits w : Nat) : State :=
  s.setInputs (.request 0 (BitVec.ofNat 128 (w % 2 ^ nbits)) :: s.inputs)

end Sys2Proof.Machine
end

