-- ==== Sys2Proof/Machine/Step.lean ====
section
/-! DEFINITION. One transition of the block and its host (rule R39). -/

namespace Sys2Proof.Machine

/-- Take the first input: run its operation, or let the host act; with no input an unfaulted block waits (log 6) and a
stopped one has no step (rules R111, R135; log 7); refuse a reserved word (rule R50). -/
def step (s : State) : Host.Outcome State Fault Refusal :=
  match fetch s with
  | .idle t => unlessFaulted t .next
  | .hosted t => .next t
  | .operation i t => exec i t
  | .invalid e => .refused (.reservedEncoding e)

/-- The state whose very next step runs the request with these bits (logs 2, 21). -/
def State.withFetchWord (s : State) (nbits w : Nat) : State := placeRequest s nbits w

end Sys2Proof.Machine
end

