-- ==== Sys2Proof/Machine/Assembler.lean ====
section
/-! DEFINITION. The assembler: from a source text to the lists of inputs it describes (rules R53, R54, D25; logs 20,
25). It is the spec's notation for test vectors; no operation depends on it. -/

namespace Sys2Proof.Machine

/-! ### Tokens -/

/-- A token of a line. A comment produces none. -/
inductive AsmToken where
  | word (text : List Char)
  /-- A word closed by a colon: `r<n>:`, `<n>:` or `host:`. -/
  | label (text : List Char)
  | comma
  | quoted (text : List Char)
  deriving DecidableEq, Repr

/-- The word read so far (last character first), as a token if there is one. -/
def flushWord (read : List Char) : List AsmToken :=
  if read = [] then [] else [.word read.reverse]

/-- The tokens of one line; `none` for a quote left open. `quoting` says that a quoted text is being read. -/
def tokenize (read : List Char) (quoting : Bool) : List Char → Option (List AsmToken)
  | [] => if quoting then none else some (flushWord read)
  | c :: cs =>
    if quoting then
      if c = '"' then (tokenize [] false cs).map (AsmToken.quoted read.reverse :: ·)
      else tokenize (c :: read) true cs
    else if c = ';' then some (flushWord read)
    else if c = '"' then (tokenize [] true cs).map (flushWord read ++ ·)
    else if c = ',' then (tokenize [] false cs).map (flushWord read ++ AsmToken.comma :: ·)
    else if c = ':' then (tokenize [] false cs).map (AsmToken.label read.reverse :: ·)
    else if c = ' ' ∨ c = '\t' ∨ c = '\r' then (tokenize [] false cs).map (flushWord read ++ ·)
    else tokenize (c :: read) false cs

/-! ### Numbers and operands (rule R53) -/

/-- The value of a digit in a base of at most 16. -/
def digitValue (base : Nat) (c : Char) : Option Nat :=
  let v :=
    if '0' ≤ c ∧ c ≤ '9' then c.toNat - 48
    else if 'a' ≤ c ∧ c ≤ 'f' then c.toNat - 87
    else if 'A' ≤ c ∧ c ≤ 'F' then c.toNat - 55
    else 16
  if v < base then some v else none

/-- The number whose digits, most significant first, follow the prefix of value `acc`. -/
def digitsFrom (base acc : Nat) : List Char → Option Nat
  | [] => some acc
  | c :: cs =>
    match digitValue base c with
    | some v => digitsFrom base (acc * base + v) cs
    | none => none

/-- A number of at least one digit. -/
def readNat (base : Nat) : List Char → Option Nat
  | [] => none
  | cs => digitsFrom base 0 cs

/-- An operand as written. -/
def readOperand (cs : List Char) : Option AsmOperand :=
  if cs = "INT32_MAX".toList then some .int32Max
  else if cs = "INT32_MIN".toList then some .int32Min
  else
    match cs with
    | '1' :: '<' :: '<' :: n => (readNat 10 n).map .oneShl
    | '0' :: 'x' :: p => (readNat 16 p).map .hex
    | '-' :: d => (readNat 10 d).map fun v => .dec (-(v : Int))
    | d => (readNat 10 d).map fun v => .dec (v : Int)

/-! ### Lines -/

/-- The line that a mnemonic with three operands spells. -/
def lineOfMnemonic (m : List Char) (x multiplier shift : AsmOperand) : Option AsmLine :=
  if m = "APPLY".toList then some (.apply x multiplier shift)
  else if m = "SCALE_SINGLE".toList then some (.scaleSingle x multiplier shift)
  else if m = "SCALE_RTE".toList then some (.scaleRte x multiplier shift)
  else if m = "SCALE_RTE_INTENT".toList then some (.scaleRteIntent x multiplier shift)
  else none

/-- The configuration key written `0` or `1` (rule R54). -/
def readKey (cs : List Char) : Option CfgKey :=
  if cs = ['0'] then some .roundingMode else if cs = ['1'] then some .diagnosticsEnable else none

/-- The request line that the tokens after the labels spell (rule R53). -/
def requestOf : List AsmToken → Option AsmLine
  | [.word w] =>
    if w = "RESOLVE_POLICY".toList then some .resolvePolicy
    else if w = "RESOLVE_DIAG".toList then some .resolveDiag
    else none
  | [.word m, .word x, .comma, .word mul, .comma, .word sh] =>
    match readOperand x, readOperand mul, readOperand sh with
    | some x, some mul, some sh => lineOfMnemonic m x mul sh
    | _, _, _ => none
  | _ => none

/-- The directive that the tokens after the labels spell (rule R54). -/
def directiveOf : List AsmToken → Option AsmDirective
  | [.word w] => if w = ".reset".toList then some .reset else none
  | [.word d, .word k, .comma, .quoted text] =>
    if d = ".cfg".toList then (readKey k).map (.cfg · (some text)) else none
  | [.word d, .word k, .comma, .word v] =>
    if d = ".cfg".toList ∧ v = "absent".toList then (readKey k).map (.cfg · none)
    else if d = ".param".toList ∧ k = "RANGE_CHECK".toList then
      if v = "checked".toList then some (.param .checked)
      else if v = "unchecked".toList then some (.param .unchecked)
      else none
    else none
  | _ => none

/-- What the labels of a line say (rule R53). -/
structure AsmLabels where
  /-- The `n` of `r<n>:`. -/
  sender : Option Nat
  /-- `host:` stands there. -/
  hosted : Bool
  deriving DecidableEq, Repr

/-- Read the labels off the front of a line: at most one `r<n>:`, at most one `host:`, any number of `<n>:`, which say
nothing (rule R53). -/
def readLabels (l : AsmLabels) : List AsmToken → Option (AsmLabels × List AsmToken)
  | .label ('r' :: n) :: ts =>
    match l.sender, readNat 10 n with
    | none, some n => readLabels { l with sender := some n } ts
    | _, _ => none
  | .label text :: ts =>
    if text = "host".toList then (if l.hosted then none else readLabels { l with hosted := true } ts)
    else if (readNat 10 text).isSome then readLabels l ts
    else none
  | ts => some (l, ts)

/-- The item of a line with these labels: `r<n>:` stands before a mnemonic only, `host:` before a directive only
(rule R53). -/
def itemOf (l : AsmLabels) (ts : List AsmToken) : Option AsmItem :=
  match requestOf ts, directiveOf ts with
  | some line, _ => if l.hosted then none else some (.request (l.sender.getD 0) line)
  | none, some d => if l.sender.isSome then none else some (.directive l.hosted d)
  | none, none => none

/-- A line's item, if it has one: a blank line, a comment or a line number alone has none. -/
def lineItems (ts : List AsmToken) : Option (List AsmItem) :=
  match readLabels ⟨none, false⟩ ts with
  | none => none
  | some (⟨none, false⟩, []) => some []
  | some (l, ts) => (itemOf l ts).map ([·])

/-- The lines of a text. -/
def splitLines (read : List Char) : List Char → List (List Char)
  | [] => [read.reverse]
  | c :: cs => if c = '\n' then read.reverse :: splitLines [] cs else splitLines (c :: read) cs

/-- The items of a text, in order; `none` if a line is not of the syntax. -/
def parseLines : List (List Char) → Option (List AsmItem)
  | [] => some []
  | l :: ls =>
    match (tokenize [] false l).bind lineItems, parseLines ls with
    | some a, some b => some (a ++ b)
    | _, _ => none

/-! ### From items to the orders of inputs that the text admits (rules R39, R53; U8) -/

/-- The input of a directive; `.param` has none: it selects the machine (rule R54). -/
def directiveInputs : AsmDirective → List Input
  | .reset => [.reset]
  | .cfg k none => [.setCfg k .absent]
  | .cfg k (some text) => [.setCfg k (.present (asciiBytes text))]
  | .param _ => []

/-- The inputs that an item stands for. -/
def itemInputs : AsmItem → List Input
  | .request r l => [.request r (encode l.instr)]
  | .directive _ d => directiveInputs d

/-- An item without a `host:` label that is a directive. -/
def isPlainDirective : AsmItem → Bool
  | .request _ _ => false
  | .directive hosted _ => !hosted

/-- Of two items, the first earlier in the text: does it also take effect first? Requests of one requester do (rule
R39), requests of different requesters need not (U8), a directive stands between what is before and after it ("from
here on", rule R54), and one marked `host:` is ordered with nothing (rule R53; log 25). -/
def mustPrecede : AsmItem → AsmItem → Bool
  | .request a _, .request b _ => a == b
  | .request _ _, .directive hosted _ => !hosted
  | .directive hosted _, .request _ _ => !hosted
  | .directive h _, .directive k _ => !h && !k

/-- Every way to put `x`, which the text has first, among items already in order: not behind one it must precede. -/
def insertions (x : AsmItem) : List AsmItem → List (List AsmItem)
  | [] => [[x]]
  | y :: ys => (x :: y :: ys) :: if mustPrecede x y then [] else (insertions x ys).map (y :: ·)

/-- Every order of items in which each takes effect before those it must precede. -/
def orders : List AsmItem → List (List AsmItem)
  | [] => [[]]
  | x :: xs => (orders xs).flatMap (insertions x)

/-- Every order that a text admits: the directives before its first other line come first, as written: they set up
what the program starts from (log 25). -/
def textOrders (items : List AsmItem) : List (List AsmItem) :=
  (orders (items.dropWhile isPlainDirective)).map (items.takeWhile isPlainDirective ++ ·)

/-- An item that happens at some moment: all but `.param`. -/
def happens (i : AsmItem) : Bool := !(itemInputs i).isEmpty

/-- What a source text describes, for a block with `nReq` requesters: every list of inputs that its labels and rule R39
admit, none of them preferred (U8). The order among racing requesters and `host:` lines is not the model's to fix. -/
def assembleText (nReq : Nat) (text : List Char) : Option (List (List Input)) :=
  match parseLines (splitLines [] text) with
  | some items =>
    if items.all (AsmItem.wf nReq) then
      some ((textOrders (items.filter happens)).map (·.flatMap itemInputs))
    else none
  | none => none

end Sys2Proof.Machine
end

