-- ==== Sys2Proof/Machine/Datapath.lean ====
section
/-! DEFINITION. The scalers' intermediate values in 64-bit two's complement words, as hardware holds them (rule R5).
The operations are defined over integers in Machine/Scale.lean; that the two agree on legal operands is rules R63
and R73, stated as an obligation. -/

namespace Sys2Proof.Machine

/-- `sext_64` (rule R7). -/
def sext64 (v : Word) : Acc := v.signExtend 64

/-- `1 << n` in 64 bits (rule R12). -/
def oneShl64 (n : Nat) : Acc := 1#64 <<< n

/-- `result_64` of `scale_single`, steps 2 to 5 in 64 bits (rule R61). -/
def singleResultDatapath (x multiplier shift : Word) : Acc :=
  (sext64 x * sext64 multiplier + oneShl64 (totalShift shift - 1)).sshiftRight (totalShift shift)

/-- `round_to_even` in 64 bits (rule R71). -/
def roundToEvenDatapath (value : Acc) (amount : Nat) : Acc :=
  (value + (value.sshiftRight amount &&& 1#64) + (oneShl64 (amount - 1) - 1#64)).sshiftRight amount

/-- `result_64` of the literal form in 64 bits (rule R75). -/
def literalResultDatapath (x shift : Word) : Acc :=
  roundToEvenDatapath (sext64 x * sext64 shift) shift.toInt.toNat

/-- `result_64` of the intent form in 64 bits (rule R77). -/
def intentResultDatapath (x multiplier shift : Word) : Acc :=
  roundToEvenDatapath (sext64 x * sext64 multiplier) (totalShift shift)

end Sys2Proof.Machine
end

