-- ==== Sys2Proof/Safety.lean ====
section
/-! DEFINITION. What a good state is (rule R111), the invariant that ties the registers to the port histories, and the
vocabulary of the claims about runs. -/

namespace Sys2Proof.Machine

/-- A good state: no fatal exception has stopped the block. "A faulted state is never a final (good) state" (R111). -/
def Good (s : State) : Prop := s.fault = .none

/-- `r` is the integer nearest to `v / 2^a`, and at an exact tie the even one of the two nearest (rule R72). -/
def NearestEven (v : Int) (a : Nat) (r : Int) : Prop :=
  2 * |v - r * 2 ^ a| ≤ 2 ^ a ∧ (2 * |v - r * 2 ^ a| = 2 ^ a → r % 2 = 0)

/-- The policy that an `APPLY` runs under: the resolved one, or what a lookup now would select (rules R85, R86). -/
def policyInForce (s : State) : Policy :=
  match s.policy with
  | .resolved p => p
  | .unresolved => (classifyMode s.cfgMode).1

/-- The diagnostic flag that an `APPLY` runs under (rules R88, R89). -/
def diagInForce (s : State) : Bool :=
  match s.diag with
  | .resolved on => on
  | .unresolved => classifyDiag s.cfgDiag

/-- The lookup of key 0 that resolving the policy now would issue (rule R86). -/
def policyLookup (s : State) : List (CfgKey × CfgAnswer) :=
  if s.policy = .unresolved then [(.roundingMode, s.cfgMode)] else []

/-- The lookup of key 1 that resolving the flag now would issue (rule R89). -/
def diagLookup (s : State) : List (CfgKey × CfgAnswer) :=
  if s.diag = .unresolved then [(.diagnosticsEnable, s.cfgDiag)] else []

/-- The warning that resolving the policy now would emit (rule R92). -/
def policyWarning (s : State) : List Event :=
  if s.policy = .unresolved ∧ (classifyMode s.cfgMode).2 = true then [.warning] else []

/-- The operation runs in `s` and raises `e` (rule R110). -/
def Raises (e : Exception) (i : Instr) (s : State) : Prop :=
  ∃ t, exec i s = .next t ∧ t.fault = .cause e ∧
    t.responses = s.responses ++ [(s.client, .exception e)]

/-- The answer of the last lookup of a key. -/
def lastAnswer (k : CfgKey) (ls : List (CfgKey × CfgAnswer)) : Option CfgAnswer :=
  ((ls.filter fun l => l.1 = k).map Prod.snd).getLast?

/-- How often a key was looked up. -/
def lookupCount (k : CfgKey) (s : State) : Nat := (s.lookups.filter fun l => l.1 = k).length

/-- How many `WARNING` events the sink has received. -/
def warningCount (s : State) : Nat := (s.events.filter fun e => e = .warning).length

/-- How many lookups of key 0 found a value that is warned about (rule R85). -/
def warnedLookups (s : State) : Nat :=
  (s.lookups.filter fun l => l.1 = .roundingMode && (classifyMode l.2).2).length

/-- Every `AFTER` directly follows a `BEFORE` (rule R97). -/
def hooksPaired : List Event → Bool
  | [] => true
  | .before _ _ _ :: .after _ :: es => hooksPaired es
  | .before _ _ _ :: es => hooksPaired es
  | .warning :: es => hooksPaired es
  | .after _ :: _ => false

/-- The requester that an input answers to, if it is a request. -/
def Input.requester? : Input → Option Nat
  | .request r _ => some r
  | .setCfg _ _ => none
  | .reset => none

/-- No reset is among the pending inputs: what follows lies in one process lifetime (rule R125, D6). -/
def NoReset (s : State) : Prop := Input.reset ∉ s.inputs

/-- What holds in every state between two transitions. -/
structure Inv (s : State) : Prop where
  /-- A resolved policy is what the last lookup of key 0 said (rules R85, R86). -/
  policy_from_lookup : ∀ p, s.policy = .resolved p →
    (lastAnswer .roundingMode s.lookups).map (fun a => (classifyMode a).1) = some p
  /-- A resolved flag is what the last lookup of key 1 said (rules R88, R89). -/
  diag_from_lookup : ∀ on, s.diag = .resolved on →
    (lastAnswer .diagnosticsEnable s.lookups).map classifyDiag = some on
  /-- One `WARNING` for each lookup that found an unrecognised value, and no other (rule R92). -/
  warnings_from_lookups : warningCount s = warnedLookups s
  /-- The hook fires before and after (rule R97). -/
  hooks_paired : hooksPaired s.events = true
  /-- A set latch shows as the status of the last response (rules R23, R111). -/
  fault_answered : ∀ e, s.fault = .cause e → (s.responses.getLast?).map Prod.snd = some (.exception e)
  /-- Every request pending comes from a requester that exists (rules R5, R116). -/
  requesters_exist : ∀ i ∈ s.inputs, ∀ r, i.requester? = some r → r < Config.nReq
  /-- Every response went to a requester that exists (rule R31). -/
  answered_exist : ∀ p ∈ s.responses, p.1 < Config.nReq
  /-- The port serves a requester that exists. -/
  client_exists : s.client < Config.nReq

end Sys2Proof.Machine
end

