-- ==== Sys2Proof/Certificates/Slice0/Obligations.lean ====
section
/-! DEFINITION. The statements for the provers, each a rule of spec/ or what the rules give together. Where a
statement rests on one of the spec's own decisions (D<n>) or inferences, its docstring says so. -/

open Sys2Proof Sys2Proof.Machine

/-! ### Encoding -/

/-- Decoding the word, and the serialised bytes, of any operation gives it back with every operand at every value
(rules R35, R45 to R47; layout D2, D3, byte order D19 are the spec's decisions). -/
def Obligations.DecodeOfEncodeIsIdentity : Prop :=
  ∀ (i : Instr) (rest : List Byte),
    decode (encode i) = .ok i ∧ decodeBytes (encodeBytes i ++ rest) = .ok (i, rest)

/-- `REQ = (op << 96) | (u32(shift) << 64) | (u32(multiplier) << 32) | u32(x)` (rule R53; D2, D25). -/
def Obligations.EncodedWordIsTheSumOfItsFields : Prop :=
  ∀ x m sh : Word,
    (encode (.apply x m sh)).toNat = sh.toNat * 2 ^ 64 + m.toNat * 2 ^ 32 + x.toNat ∧
    (encode (.scaleSingle x m sh)).toNat = 2 ^ 96 + sh.toNat * 2 ^ 64 + m.toNat * 2 ^ 32 + x.toNat ∧
    (encode (.scaleRte x m sh)).toNat = 2 * 2 ^ 96 + sh.toNat * 2 ^ 64 + m.toNat * 2 ^ 32 + x.toNat ∧
    (encode (.scaleRteIntent x m sh)).toNat = 3 * 2 ^ 96 + sh.toNat * 2 ^ 64 + m.toNat * 2 ^ 32 + x.toNat ∧
    (encode .resolvePolicy).toNat = 4 * 2 ^ 96 ∧
    (encode .resolveDiag).toNat = 5 * 2 ^ 96

/-- A word spells an operation exactly when its top 32 bits, `rsv` and `op`, are below 6; a step refuses any other
(rule R50, D24). -/
def Obligations.ReservedWordsAreRefusedAndOnlyThose : Prop :=
  ∀ w : ReqWord,
    (w.toNat / 2 ^ 96 < 6 ↔ ∃ i, decode w = .ok i) ∧
    ∀ (s : State) (r : Nat) (rest : List Input), s.inputs = .request r w :: rest → 6 ≤ w.toNat / 2 ^ 96 →
      ∃ e, step s = .refused (.reservedEncoding e)

/-- What a word with given field values decodes to; the operand fields of the two `RESOLVE_*` are ignored
(rules R45 to R47; D2, D3). -/
def Obligations.DecodeReadsTheFields : Prop :=
  ∀ (w : ReqWord) (x m sh : Word), w.toNat % 2 ^ 96 = sh.toNat * 2 ^ 64 + m.toNat * 2 ^ 32 + x.toNat →
    (w.toNat / 2 ^ 96 = 0 → decode w = .ok (.apply x m sh)) ∧
    (w.toNat / 2 ^ 96 = 1 → decode w = .ok (.scaleSingle x m sh)) ∧
    (w.toNat / 2 ^ 96 = 2 → decode w = .ok (.scaleRte x m sh)) ∧
    (w.toNat / 2 ^ 96 = 3 → decode w = .ok (.scaleRteIntent x m sh)) ∧
    (w.toNat / 2 ^ 96 = 4 → decode w = .ok .resolvePolicy) ∧
    (w.toNat / 2 ^ 96 = 5 → decode w = .ok .resolveDiag)

/-- The decoder selects an operation's row exactly when `REQ & mask == match` for that row (rule R47; D3). -/
def Obligations.DecoderMatchesMaskAndMatch : Prop :=
  ∀ (w : ReqWord) (i : Instr), (∃ j, decode w = .ok j ∧ j.op = i.op) ↔ w &&& opMask = i.opMatch

/-- The eight decoder examples of 95_test_vectors 7.4, the worked example of `SCALE_RTE_INTENT` (rule R80) and the
`RESOLVE_POLICY` word with operand fields of 95_test_vectors 7.1 (layout D2, D3). -/
def Obligations.SpecSampleWordsDecode : Prop :=
  decode 0x00000000_00000000_40000000_00000001#128 = .ok (.apply 1#32 1073741824#32 0#32) ∧
  decode 0x00000005_ffffffff_ffffffff_ffffffff#128 = .ok .resolveDiag ∧
  decode 0x00000006_00000000_00000000_00000000#128 = .error (.reservedOp 6#3) ∧
  decode 0x00000007_00000000_00000000_00000000#128 = .error (.reservedOp 7#3) ∧
  decode 0x00000008_00000000_40000000_00000001#128 = .error .reservedBits ∧
  decode 0x80000001_00000000_40000000_00000001#128 = .error .reservedBits ∧
  decode 0x00000001_00000008_00000001_00000001#128 = .ok (.scaleSingle 1#32 1#32 8#32) ∧
  decode 0x00000002_ffffffff_00000005_00000064#128 = .ok (.scaleRte 100#32 5#32 (BitVec.ofInt 32 (-1))) ∧
  decode 0x00000003_00000000_40000000_00000005#128 = .ok (.scaleRteIntent 5#32 1073741824#32 0#32) ∧
  decode 0x00000004_12345678_9abcdef0_0badcafe#128 = .ok .resolvePolicy

/-- Byte `i` of a serialised request or response holds bits `[8i+7:8i]` of the word (rule R35, D19). -/
def Obligations.ByteIHoldsItsEightBits : Prop :=
  (∀ (w : ReqWord) (i : Nat), i < 16 → (bytesOf 16 w.toNat)[i]? = some (w.extractLsb' (8 * i) 8)) ∧
  (∀ (n : Nat) (r : Response) (i : Nat), i < 8 → (r.bytes n)[i]? = some ((r.word n).extractLsb' (8 * i) 8)) ∧
  (∀ w : ReqWord, (bytesOf 16 w.toNat).length = 16) ∧
  (∀ (n : Nat) (r : Response), (r.bytes n).length = 8)

/-- A line whose three operands each lie in the signed 32-bit range, a `0x` pattern in 32 bits, assembles to a request
that decodes to operands of exactly the written integers; with any of the three, in any of the four operations, not so, it
assembles to nothing; the two `RESOLVE_*` assemble with zero operand fields (rule R53, D25). -/
def Obligations.AssembledLineKeepsItsIntegers : Prop :=
  (∀ a b c : AsmOperand,
    ((∀ o ∈ [a, b, c], -2147483648 ≤ o.value ∧ o.value ≤ 2147483647 ∧ ∀ p, o = .hex p → p < 2 ^ 32) →
      ∃ x m sh : Word,
        x.toInt = a.value ∧ m.toInt = b.value ∧ sh.toInt = c.value ∧
        (AsmLine.apply a b c).assemble = some (encode (.apply x m sh)) ∧
        (AsmLine.scaleSingle a b c).assemble = some (encode (.scaleSingle x m sh)) ∧
        (AsmLine.scaleRte a b c).assemble = some (encode (.scaleRte x m sh)) ∧
        (AsmLine.scaleRteIntent a b c).assemble = some (encode (.scaleRteIntent x m sh))) ∧
    ((∃ o ∈ [a, b, c], o.value < -2147483648 ∨ 2147483647 < o.value ∨ ∃ p, o = .hex p ∧ 2 ^ 32 ≤ p) →
      (AsmLine.apply a b c).assemble = none ∧ (AsmLine.scaleSingle a b c).assemble = none ∧
      (AsmLine.scaleRte a b c).assemble = none ∧ (AsmLine.scaleRteIntent a b c).assemble = none)) ∧
  (∃ w, AsmLine.resolvePolicy.assemble = some w ∧ w.toNat = 4 * 2 ^ 96) ∧
  ∃ w, AsmLine.resolveDiag.assemble = some w ∧ w.toNat = 5 * 2 ^ 96

/-- The response word: the status above the result, zero above both; the result bits of an exception are the free
value of its place, whatever it is. The event word: the tag above `c`, `b` and `a` (rules R48, R49, R51; D4, D14). -/
def Obligations.PortWordsHoldTheirFields : Prop :=
  ∀ (n : Nat) (r x m sh : Word) (e : Exception),
    ((Response.ok r).word n).toNat = r.toNat ∧
    ((Response.exception .preconditionViolation).word n).toNat / 2 ^ 32 = 1 ∧
    ((Response.exception .rangeAssertionFailure).word n).toNat / 2 ^ 32 = 2 ∧
    ((Response.exception e).word n).toNat % 2 ^ 32 = (Config.unspecifiedResult n).toNat ∧
    (Event.before x m sh).word.toNat = sh.toNat * 2 ^ 64 + m.toNat * 2 ^ 32 + x.toNat ∧
    (Event.after r).word.toNat = 2 ^ 96 + r.toNat ∧
    Event.warning.word.toNat = 2 * 2 ^ 96

/-! ### A step, and reset -/

/-- A step runs the decoded request at the front of the inputs, which it takes, and answers to its sender
(rules R31, R39). -/
def Obligations.StepRunsTheDecodedRequest : Prop :=
  ∀ (s : State) (r : Nat) (w : ReqWord) (rest : List Input) (i : Instr),
    s.inputs = .request r w :: rest → decode w = .ok i →
    step s = exec i { s with inputs := rest, client := r }

/-- Between operations the host may change a setting, which changes nothing of the block, also of a stopped one; with
no input an unfaulted block waits (rules R16, R33; waiting is the model's choice, log 6). -/
def Obligations.HostChangesOnlyTheSetting : Prop :=
  ∀ s : State,
    (∀ a rest, s.inputs = .setCfg .roundingMode a :: rest → step s = .next { s with inputs := rest, cfgMode := a }) ∧
    (∀ a rest, s.inputs = .setCfg .diagnosticsEnable a :: rest →
      step s = .next { s with inputs := rest, cfgDiag := a }) ∧
    (s.inputs = [] → s.fault = .none → step s = .next s)

/-- The reset event sets the three registers to their reset values, in a stopped block too, and touches neither the
configuration nor the histories (rules R125, R126, R114; reset is the spec's decision D6, that pending requests stay
is log 13). -/
def Obligations.ResetEventClearsExactlyTheRegisters : Prop :=
  ∀ (s : State) (rest : List Input), s.inputs = .reset :: rest →
    step s = .next
      { s with
        inputs := rest
        policy := State.reset.policy
        diag := State.reset.diag
        fault := State.reset.fault }

/-- After reset every register's code is 0 (rules R25, R126; D5, D6). -/
def Obligations.ResetLeavesEveryRegisterZero : Prop :=
  State.reset.policy.code = 0#2 ∧ State.reset.diag.code = 0#2 ∧ State.reset.fault.code = 0#2 ∧
  (∀ p d f, PolicyReg.code p = 0#2 → DiagReg.code d = 0#2 → FaultReg.code f = 0#2 →
    p = State.reset.policy ∧ d = State.reset.diag ∧ f = State.reset.fault)

/-! ### The scalers as functions -/

/-- `scale_single`: the preconditions (R60) and the seven steps (R61), with the range check of the checked build. -/
def Obligations.ScaleSingleFollowsTheSevenSteps : Prop :=
  ∀ x m sh : Word,
    (m.toInt < 0 ∨ sh.toInt < -31 ∨ 7 < sh.toInt → ∀ rc, scaleSingle rc x m sh = .error .preconditionViolation) ∧
    (0 ≤ m.toInt → -31 ≤ sh.toInt → sh.toInt ≤ 7 → ∀ t : Nat, (t : Int) = 31 - sh.toInt →
      24 ≤ t ∧ t ≤ 62 ∧
      roundConstant sh = 2 ^ (t - 1) ∧ 8388608 ≤ roundConstant sh ∧ roundConstant sh ≤ 2305843009213693952 ∧
      biasedProduct x m sh = x.toInt * m.toInt + 2 ^ (t - 1) ∧
      singleResult64 x m sh = (x.toInt * m.toInt + 2 ^ (t - 1)) / 2 ^ t ∧
      (∀ v : Word, v.toInt = (x.toInt * m.toInt + 2 ^ (t - 1)) / 2 ^ t → scaleSingle .checked x m sh = .ok v) ∧
      ((x.toInt * m.toInt + 2 ^ (t - 1)) / 2 ^ t < -2147483648 ∨
        2147483647 < (x.toInt * m.toInt + 2 ^ (t - 1)) / 2 ^ t →
        scaleSingle .checked x m sh = .error .rangeAssertionFailure))

/-- Strategy A rounds the exact product's quotient half up, and is symmetric about zero except at exact ties, where
the negated operand gives one more than the negated result (rule R64, derived there). -/
def Obligations.SingleRoundingIsRoundHalfUp : Prop :=
  ∀ x m sh : Word, 0 ≤ m.toInt → -31 ≤ sh.toInt → sh.toInt ≤ 7 → ∀ t : Nat, (t : Int) = 31 - sh.toInt →
    2 * singleResult64 x m sh * 2 ^ t ≤ 2 * (x.toInt * m.toInt) + 2 ^ t ∧
    2 * (x.toInt * m.toInt) + 2 ^ t < 2 * (singleResult64 x m sh + 1) * 2 ^ t ∧
    ∀ y : Word, y.toInt = -x.toInt →
      singleResult64 y m sh = -singleResult64 x m sh +
        (if x.toInt * m.toInt % 2 ^ t = 2 ^ (t - 1) then 1 else 0)

/-- On legal operands the product, the round constant and their sum stay in the bounds of rule R63, inside 64 bits
(derived there). -/
def Obligations.SingleProductNeverOverflows : Prop :=
  ∀ x m sh : Word, 0 ≤ m.toInt → -31 ≤ sh.toInt → sh.toInt ≤ 7 →
    -4611686016279904256 ≤ exactProduct x m ∧ exactProduct x m ≤ 4611686014132420609 ∧
    8388608 ≤ roundConstant sh ∧ roundConstant sh ≤ 2305843009213693952 ∧
    -4611686016271515648 ≤ biasedProduct x m sh ∧ biasedProduct x m sh ≤ 6917529023346114561 ∧
    -274877906816 ≤ singleResult64 x m sh ∧ singleResult64 x m sh ≤ 274877906688

/-- The primitive is its formula on its whole domain, and raises for amount 0 (rule R71). -/
def Obligations.RoundToEvenFollowsItsFormula : Prop :=
  ∀ (v : Int) (a : Nat),
    (a = 0 → roundToEven v a = .error .preconditionViolation) ∧
    (roundToEvenDefined v a = true →
      1 ≤ a ∧ roundToEven v a = .ok ((v + v / 2 ^ a % 2 + (2 ^ (a - 1) - 1)) / 2 ^ a))

/-- The primitive gives the nearest integer, ties to even (rule R72, derived there). For amounts above 63 or a sum
outside 64 bits, where the spec defines nothing (U3), this is the model's choice: unbounded integers, log 11. -/
def Obligations.RoundToEvenIsNearestTiesToEven : Prop :=
  ∀ (v : Int) (a : Nat), 1 ≤ a →
    ∃ r, roundToEven v a = .ok r ∧ NearestEven v a r ∧ ∀ r', NearestEven v a r' → r' = r

/-- Both forms of Strategy B call the primitive inside its 64-bit domain, within the bounds of rule R73 (derived). -/
def Obligations.BlockUsesRoundToEvenInsideItsDomain : Prop :=
  ∀ x m sh : Word, 0 ≤ m.toInt →
    (1 ≤ sh.toInt → sh.toInt ≤ 7 →
      roundToEvenDefined (literalAccumulator x sh) sh.toInt.toNat = true ∧
      |literalAccumulator x sh| ≤ 15032385536 ∧ evenSum (literalAccumulator x sh) sh.toInt.toNat ≤ 15032385593) ∧
    (-31 ≤ sh.toInt → sh.toInt ≤ 7 →
      roundToEvenDefined (exactProduct x m) (totalShift sh) = true ∧
      -4611686016279904256 ≤ evenSum (exactProduct x m) (totalShift sh) ∧
      evenSum (exactProduct x m) (totalShift sh) ≤ 6917529023346114561)

/-- The literal form: its preconditions (R74) and its formula, the multiplier unused, which is the integer nearest to
`x * shift / 2^shift`, ties to even (R75). -/
def Obligations.LiteralFormFollowsItsFormula : Prop :=
  ∀ x m sh : Word,
    (m.toInt < 0 ∨ sh.toInt < 1 ∨ 7 < sh.toInt → scaleRteLiteral x m sh = .error .preconditionViolation) ∧
    (0 ≤ m.toInt → ∀ a : Nat, (a : Int) = sh.toInt → 1 ≤ a → a ≤ 7 →
      ∃ v, scaleRteLiteral x m sh = .ok v ∧
        v.toInt = (x.toInt * a + x.toInt * a / 2 ^ a % 2 + (2 ^ (a - 1) - 1)) / 2 ^ a ∧
        NearestEven (x.toInt * a) a v.toInt)

/-- The literal form's result lies in `[-2^30, 2^30]`, both ends are reached, and it never fails the range check
(rule R76, derived there). -/
def Obligations.LiteralFormAlwaysFits : Prop :=
  ∀ x m sh : Word,
    scaleRteLiteral x m sh ≠ .error .rangeAssertionFailure ∧
    (∀ v, scaleRteLiteral x m sh = .ok v → -1073741824 ≤ v.toInt ∧ v.toInt ≤ 1073741824) ∧
    (0 ≤ m.toInt → scaleRteLiteral 2147483647#32 m 1#32 = .ok 1073741824#32 ∧
      scaleRteLiteral 2147483648#32 m 1#32 = .ok (BitVec.ofInt 32 (-1073741824)))

/-- The intent form: preconditions as Strategy A, the integer nearest to `x * multiplier / 2^(31 - shift)`, ties to
even, and the range check (rules R77, R78; the spec's decisions D10, D11, log 18). -/
def Obligations.IntentFormRoundsTheExactProduct : Prop :=
  ∀ (rc : RangeCheck) (x m sh : Word),
    (m.toInt < 0 ∨ sh.toInt < -31 ∨ 7 < sh.toInt → scaleRteIntent rc x m sh = .error .preconditionViolation) ∧
    (0 ≤ m.toInt → -31 ≤ sh.toInt → sh.toInt ≤ 7 → ∀ t : Nat, (t : Int) = 31 - sh.toInt →
      ∃ r, NearestEven (x.toInt * m.toInt) t r ∧
        (∀ v : Word, v.toInt = r → scaleRteIntent rc x m sh = .ok v) ∧
        (r < -2147483648 ∨ 2147483647 < r → scaleRteIntent rc x m sh = .error .rangeAssertionFailure))

/-- When the range check of Strategy A fails, and that it cannot fail in either strategy when `shift <= 0`
(rule R65, its bounds derived there; both settings of `RANGE_CHECK` alike is the spec's decision D8, log 9). -/
def Obligations.RangeFailureExactlyWhenTooWide : Prop :=
  ∀ (rc : RangeCheck) (x m sh : Word), 0 ≤ m.toInt → -31 ≤ sh.toInt → sh.toInt ≤ 7 →
    ∀ t : Nat, (t : Int) = 31 - sh.toInt →
    (scaleSingle rc x m sh = .error .rangeAssertionFailure ↔
      2 ^ (31 + t) ≤ x.toInt * m.toInt + 2 ^ (t - 1) ∨ x.toInt * m.toInt + 2 ^ (t - 1) < -2 ^ (31 + t)) ∧
    (sh.toInt ≤ 0 →
      (∃ v, scaleSingle rc x m sh = .ok v ∧ -2147483647 ≤ v.toInt) ∧ ∃ v, scaleRteIntent rc x m sh = .ok v)

/-- Strategy A is non-decreasing in the accumulator (rule R66 (2), derived there). -/
def Obligations.ScaleSingleIsMonotone : Prop :=
  ∀ (rc : RangeCheck) (x y m sh a b : Word), x.toInt ≤ y.toInt →
    scaleSingle rc x m sh = .ok a → scaleSingle rc y m sh = .ok b → a.toInt ≤ b.toInt

/-- A zero accumulator gives zero in every scaler whose preconditions hold, and so does a zero multiplier in
Strategy A and the intent form (rules R66 (1), R80, R81 (1), derived there). -/
def Obligations.ZeroGivesZero : Prop :=
  ∀ (rc : RangeCheck) (x m sh : Word), 0 ≤ m.toInt → -31 ≤ sh.toInt → sh.toInt ≤ 7 →
    scaleSingle rc 0#32 m sh = .ok 0#32 ∧ scaleRteIntent rc 0#32 m sh = .ok 0#32 ∧
    scaleSingle rc x 0#32 sh = .ok 0#32 ∧ scaleRteIntent rc x 0#32 sh = .ok 0#32 ∧
    (1 ≤ sh.toInt → scaleRteLiteral 0#32 m sh = .ok 0#32)

/-- The intent form and Strategy A differ only at an exact tie above an even integer, and there by one
(rule R81 (2), derived there). -/
def Obligations.IntentDiffersFromSingleOnlyAtEvenTies : Prop :=
  ∀ (rc : RangeCheck) (x m sh a b : Word), scaleSingle rc x m sh = .ok a → scaleRteIntent rc x m sh = .ok b →
    ∀ t : Nat, (t : Int) = 31 - sh.toInt →
      a.toInt = b.toInt +
        (if x.toInt * m.toInt % 2 ^ t = 2 ^ (t - 1) ∧ x.toInt * m.toInt / 2 ^ t % 2 = 0 then 1 else 0)

/-- Both forms of Strategy B are odd and non-decreasing in the accumulator (rule R81 (4) and (5), derived there). -/
def Obligations.RoundToEvenFormsAreOddAndMonotone : Prop :=
  ∀ (rc : RangeCheck) (x y m sh a b : Word),
    (scaleRteLiteral x m sh = .ok a → scaleRteLiteral y m sh = .ok b →
      (y.toInt = -x.toInt → b.toInt = -a.toInt) ∧ (x.toInt ≤ y.toInt → a.toInt ≤ b.toInt)) ∧
    (scaleRteIntent rc x m sh = .ok a → scaleRteIntent rc y m sh = .ok b →
      (y.toInt = -x.toInt → b.toInt = -a.toInt) ∧ (x.toInt ≤ y.toInt → a.toInt ≤ b.toInt))

/-- On legal operands the 64-bit datapath computes exactly the integers of the definitions: nothing wraps
(rules R7, R63, R73). -/
def Obligations.DatapathAgreesWithIntegers : Prop :=
  ∀ x m sh : Word, 0 ≤ m.toInt → -31 ≤ sh.toInt → sh.toInt ≤ 7 →
    (singleResultDatapath x m sh).toInt = singleResult64 x m sh ∧
    (∃ r, roundToEven (exactProduct x m) (totalShift sh) = .ok r ∧ (intentResultDatapath x m sh).toInt = r) ∧
    (1 ≤ sh.toInt → ∃ r, roundToEven (literalAccumulator x sh) sh.toInt.toNat = .ok r ∧
      (literalResultDatapath x sh).toInt = r)

/-! ### The operations -/

/-- `SCALE_SINGLE` on operands that pass its preconditions and whose result fits: the response is that result and
nothing else changes (rules R61, R62, R67). -/
def Obligations.ScaleSingleCompletes : Prop :=
  ∀ (x m sh v : Word) (s : State) (t : Nat), s.fault = .none →
    0 ≤ m.toInt → -31 ≤ sh.toInt → sh.toInt ≤ 7 → (t : Int) = 31 - sh.toInt →
    v.toInt = (x.toInt * m.toInt + 2 ^ (t - 1)) / 2 ^ t →
    exec (.scaleSingle x m sh) s = .next { s with responses := s.responses ++ [(s.client, .ok v)] }

/-- `SCALE_RTE` on operands that pass its preconditions: the response is the literal formula's value and nothing else
changes, whatever the policy (rules R75, R79, R82). -/
def Obligations.ScaleRteCompletes : Prop :=
  ∀ (x m sh : Word) (s : State) (a : Nat), s.fault = .none → 0 ≤ m.toInt → (a : Int) = sh.toInt → 1 ≤ a → a ≤ 7 →
    ∃ v : Word, v.toInt = (x.toInt * a + x.toInt * a / 2 ^ a % 2 + (2 ^ (a - 1) - 1)) / 2 ^ a ∧
      exec (.scaleRte x m sh) s = .next { s with responses := s.responses ++ [(s.client, .ok v)] }

/-- `SCALE_RTE_INTENT` on operands that pass its preconditions and whose result fits: the response is the nearest
integer, ties to even, and nothing else changes (rules R77, R80, R82; D10, log 18). -/
def Obligations.ScaleRteIntentCompletes : Prop :=
  ∀ (x m sh v : Word) (s : State) (t : Nat), s.fault = .none →
    0 ≤ m.toInt → -31 ≤ sh.toInt → sh.toInt ≤ 7 → (t : Int) = 31 - sh.toInt →
    NearestEven (x.toInt * m.toInt) t v.toInt →
    exec (.scaleRteIntent x m sh) s = .next { s with responses := s.responses ++ [(s.client, .ok v)] }

/-- Where a direct scaler traps: the latch takes the cause, the response carries it, and nothing else changes
(rules R106, R107, R110; the latch is the spec's decision D7, `unchecked` D8). -/
def Obligations.DirectScalersTrap : Prop :=
  ∀ (x m sh : Word) (s : State), s.fault = .none →
    (m.toInt < 0 ∨ sh.toInt < -31 ∨ 7 < sh.toInt →
      ∀ i ∈ [Instr.scaleSingle x m sh, Instr.scaleRteIntent x m sh],
        exec i s = .next
          { s with
            fault := .cause .preconditionViolation
            responses := s.responses ++ [(s.client, .exception .preconditionViolation)] }) ∧
    (m.toInt < 0 ∨ sh.toInt < 1 ∨ 7 < sh.toInt →
      exec (.scaleRte x m sh) s = .next
        { s with
          fault := .cause .preconditionViolation
          responses := s.responses ++ [(s.client, .exception .preconditionViolation)] }) ∧
    (0 ≤ m.toInt → -31 ≤ sh.toInt → sh.toInt ≤ 7 → ∀ (t : Nat) (r : Int), (t : Int) = 31 - sh.toInt →
      r < -2147483648 ∨ 2147483647 < r →
      (r = (x.toInt * m.toInt + 2 ^ (t - 1)) / 2 ^ t → exec (.scaleSingle x m sh) s = .next
        { s with
          fault := .cause .rangeAssertionFailure
          responses := s.responses ++ [(s.client, .exception .rangeAssertionFailure)] }) ∧
      (NearestEven (x.toInt * m.toInt) t r → exec (.scaleRteIntent x m sh) s = .next
        { s with
          fault := .cause .rangeAssertionFailure
          responses := s.responses ++ [(s.client, .exception .rangeAssertionFailure)] }))

/-- The rounding-mode value's classification (rule R85; that "EV" is matched byte for byte is D12, log 19). -/
def Obligations.ModeClassification : Prop :=
  classifyMode .absent = (.singleRounding, false) ∧
  classifyMode (.present []) = (.singleRounding, false) ∧
  classifyMode (.present [0x45#8, 0x56#8]) = (.roundToEven, false) ∧
  ∀ bs : List Byte, bs ≠ [] → bs ≠ [0x45#8, 0x56#8] → classifyMode (.present bs) = (.singleRounding, true)

/-- The diagnostics-enable value's classification (rule R88). -/
def Obligations.DiagClassification : Prop :=
  classifyDiag .absent = false ∧ classifyDiag (.present []) = false ∧
  ∀ (b : Byte) (bs : List Byte), classifyDiag (.present (b :: bs)) = true

/-- The two resolving steps: each looks its key up, and writes its register, only while the register is unresolved; a
resolved register is answered unchanged whatever the configuration now holds; only the policy's may warn (rules R86,
R89). -/
def Obligations.ResolvingStepsAreMemoized : Prop :=
  ∀ s : State,
    (∀ p, s.policy = .resolved p → resolvePolicy s = (p, s)) ∧
    (s.policy = .unresolved →
      resolvePolicy s = ((classifyMode s.cfgMode).1,
        { s with
          policy := .resolved (classifyMode s.cfgMode).1
          lookups := s.lookups ++ [(.roundingMode, s.cfgMode)]
          events := s.events ++ (if (classifyMode s.cfgMode).2 = true then [.warning] else []) })) ∧
    (∀ on, s.diag = .resolved on → resolveDiag s = (on, s)) ∧
    (s.diag = .unresolved →
      resolveDiag s = (classifyDiag s.cfgDiag,
        { s with
          diag := .resolved (classifyDiag s.cfgDiag)
          lookups := s.lookups ++ [(.diagnosticsEnable, s.cfgDiag)] }))

/-- `RESOLVE_POLICY` in an unfaulted block answers 1 or 2, resolving first where nothing is resolved, and changes
nothing else (rules R86, R87, R92; the codes are D5 and D26, the ungated warning D15). -/
def Obligations.ResolvePolicyCompletes : Prop :=
  ∀ s : State, s.fault = .none →
    exec .resolvePolicy s = .next
      { s with
        policy := .resolved (policyInForce s)
        lookups := s.lookups ++ policyLookup s
        events := s.events ++ policyWarning s
        responses := s.responses ++
          [(s.client, .ok (match policyInForce s with | .singleRounding => 1#32 | .roundToEven => 2#32))] }

/-- `RESOLVE_DIAG` in an unfaulted block answers 0 or 1, resolving first where nothing is resolved, and changes nothing
else (rules R89, R90; the codes are D5 and D26). -/
def Obligations.ResolveDiagCompletes : Prop :=
  ∀ s : State, s.fault = .none →
    exec .resolveDiag s = .next
      { s with
        diag := .resolved (diagInForce s)
        lookups := s.lookups ++ diagLookup s
        responses := s.responses ++ [(s.client, .ok (if diagInForce s = true then 1#32 else 0#32))] }

/-- `APPLY` under the single-rounding policy, on operands that pass the preconditions and whose result fits: every
effect of its five steps, and no other (rules R95, R96, R97). -/
def Obligations.ApplyCompletesUnderSingleRounding : Prop :=
  ∀ (x m sh v : Word) (s : State) (t : Nat), s.fault = .none → policyInForce s = .singleRounding →
    0 ≤ m.toInt → -31 ≤ sh.toInt → sh.toInt ≤ 7 → (t : Int) = 31 - sh.toInt →
    v.toInt = (x.toInt * m.toInt + 2 ^ (t - 1)) / 2 ^ t →
    exec (.apply x m sh) s = .next
      { s with
        policy := .resolved .singleRounding
        diag := .resolved (diagInForce s)
        lookups := s.lookups ++ policyLookup s ++ diagLookup s
        events := s.events ++ policyWarning s ++
          (if diagInForce s = true then [.before x m sh, .after v] else [])
        responses := s.responses ++ [(s.client, .ok v)] }

/-- `APPLY` under the round-to-even policy: the literal form, the multiplier only checked (rules R95, R96, R97, R132). -/
def Obligations.ApplyCompletesUnderRoundToEven : Prop :=
  ∀ (x m sh : Word) (s : State) (a : Nat), s.fault = .none → policyInForce s = .roundToEven →
    0 ≤ m.toInt → (a : Int) = sh.toInt → 1 ≤ a → a ≤ 7 →
    ∃ v : Word, v.toInt = (x.toInt * a + x.toInt * a / 2 ^ a % 2 + (2 ^ (a - 1) - 1)) / 2 ^ a ∧
      exec (.apply x m sh) s = .next
        { s with
          policy := .resolved .roundToEven
          diag := .resolved (diagInForce s)
          lookups := s.lookups ++ policyLookup s ++ diagLookup s
          events := s.events ++ policyWarning s ++
            (if diagInForce s = true then [.before x m sh, .after v] else [])
          responses := s.responses ++ [(s.client, .ok v)] }

/-- An `APPLY` whose scaler raises: what steps 1 and 2 did stays done, there is no `AFTER` and no result
(rules R98, R110, R112; the spec's decisions D7, D17). -/
def Obligations.ApplyTraps : Prop :=
  ∀ (x m sh : Word) (s : State) (e : Exception), s.fault = .none →
    (match policyInForce s with
      | .singleRounding => scaleSingle Config.rangeCheck x m sh
      | .roundToEven => scaleRteLiteral x m sh) = .error e →
    exec (.apply x m sh) s = .next
      { s with
        policy := .resolved (policyInForce s)
        diag := .resolved (diagInForce s)
        fault := .cause e
        lookups := s.lookups ++ policyLookup s ++ diagLookup s
        events := s.events ++ policyWarning s ++ (if diagInForce s = true then [.before x m sh] else [])
        responses := s.responses ++ [(s.client, .exception e)] }

/-- While the latch is set no operation has a step, whoever sends it, and with nothing pending there is no step either
(rules R111, R135, the spec's decision D7; log 7). -/
def Obligations.FaultedBlockRunsNothing : Prop :=
  ∀ (s : State) (e : Exception), s.fault = .cause e →
    (∀ i, exec i s = .fault (.latched e)) ∧
    (∀ r w rest i, s.inputs = .request r w :: rest → decode w = .ok i → step s = .fault (.latched e)) ∧
    (s.inputs = [] → step s = .fault (.latched e))

/-- Which operations raise `PreconditionViolation`, and exactly when; the value of `x` never causes it (rule R106). -/
def Obligations.PreconditionViolationExactlyWhen : Prop :=
  ∀ (x m sh : Word) (s : State), s.fault = .none →
    (Raises .preconditionViolation (.scaleSingle x m sh) s ↔ m.toInt < 0 ∨ sh.toInt < -31 ∨ 7 < sh.toInt) ∧
    (Raises .preconditionViolation (.scaleRte x m sh) s ↔ m.toInt < 0 ∨ sh.toInt < 1 ∨ 7 < sh.toInt) ∧
    (Raises .preconditionViolation (.scaleRteIntent x m sh) s ↔ m.toInt < 0 ∨ sh.toInt < -31 ∨ 7 < sh.toInt) ∧
    (policyInForce s = .singleRounding →
      (Raises .preconditionViolation (.apply x m sh) s ↔ m.toInt < 0 ∨ sh.toInt < -31 ∨ 7 < sh.toInt)) ∧
    (policyInForce s = .roundToEven →
      (Raises .preconditionViolation (.apply x m sh) s ↔ m.toInt < 0 ∨ sh.toInt < 1 ∨ 7 < sh.toInt)) ∧
    ¬Raises .preconditionViolation .resolvePolicy s ∧ ¬Raises .preconditionViolation .resolveDiag s

/-- Which operations raise `RangeAssertionFailure`: never the literal form, never the resolving operations, never with
`shift <= 0`; the others exactly when the legal operands' result does not fit (rule R107; `unchecked` alike is D8). -/
def Obligations.RangeAssertionExactlyWhen : Prop :=
  ∀ (x m sh : Word) (s : State), s.fault = .none →
    (Raises .rangeAssertionFailure (.scaleSingle x m sh) s ↔
      0 ≤ m.toInt ∧ -31 ≤ sh.toInt ∧ sh.toInt ≤ 7 ∧
        (singleResult64 x m sh < -2147483648 ∨ 2147483647 < singleResult64 x m sh)) ∧
    (Raises .rangeAssertionFailure (.scaleRteIntent x m sh) s ↔
      0 ≤ m.toInt ∧ -31 ≤ sh.toInt ∧ sh.toInt ≤ 7 ∧ ∃ r, NearestEven (x.toInt * m.toInt) (totalShift sh) r ∧
        (r < -2147483648 ∨ 2147483647 < r)) ∧
    (policyInForce s = .singleRounding →
      (Raises .rangeAssertionFailure (.apply x m sh) s ↔ Raises .rangeAssertionFailure (.scaleSingle x m sh) s)) ∧
    (policyInForce s = .roundToEven → ¬Raises .rangeAssertionFailure (.apply x m sh) s) ∧
    (sh.toInt ≤ 0 → ¬Raises .rangeAssertionFailure (.scaleSingle x m sh) s ∧
      ¬Raises .rangeAssertionFailure (.scaleRteIntent x m sh) s) ∧
    ¬Raises .rangeAssertionFailure (.scaleRte x m sh) s ∧
    ¬Raises .rangeAssertionFailure .resolvePolicy s ∧ ¬Raises .rangeAssertionFailure .resolveDiag s

/-- The warning: emitted by exactly those `APPLY` and `RESOLVE_POLICY` that resolve the policy from a non-empty value
other than "EV", which then is the default policy; no other operation emits it, and it never sets the latch
(rules R92, R108; the exact match is D12, that the flag does not gate it D15). -/
def Obligations.WarningExactlyWhenUnrecognised : Prop :=
  ∀ (i : Instr) (s t : State), exec i s = .next t →
    warningCount t = warningCount s +
      (if s.policy = .unresolved ∧ t.policy ≠ .unresolved ∧
          s.cfgMode ≠ .absent ∧ s.cfgMode ≠ .present [] ∧ s.cfgMode ≠ .present [0x45#8, 0x56#8]
        then 1 else 0) ∧
    (warningCount t ≠ warningCount s → t.policy = .resolved .singleRounding ∧
      (i = .resolvePolicy → t.fault = .none ∧ t.responses = s.responses ++ [(s.client, .ok 1#32)]) ∧
      (i = .resolvePolicy ∨ ∃ x m sh, i = .apply x m sh))

/-- The two settings are independent: resolving one register neither reads nor writes the other register or the other
setting; the three scaling operations resolve neither; an `APPLY` on a fresh block resolves both, policy first
(rule R91). -/
def Obligations.ResolutionsAreIndependent : Prop :=
  ∀ (s t : State) (d : DiagReg) (p : PolicyReg) (a : CfgAnswer),
    (exec .resolvePolicy s = .next t → t.diag = s.diag ∧
      exec .resolvePolicy { s with diag := d, cfgDiag := a } = .next { t with diag := d, cfgDiag := a }) ∧
    (exec .resolveDiag s = .next t → t.policy = s.policy ∧
      exec .resolveDiag { s with policy := p, cfgMode := a } = .next { t with policy := p, cfgMode := a }) ∧
    (∀ x m sh, ∀ i ∈ [Instr.scaleSingle x m sh, Instr.scaleRte x m sh, Instr.scaleRteIntent x m sh],
      exec i s = .next t → t.policy = s.policy ∧ t.diag = s.diag ∧
      exec i { s with policy := p, diag := d } = .next { t with policy := p, diag := d }) ∧
    (∀ x m sh, s.policy = .unresolved → s.diag = .unresolved → exec (.apply x m sh) s = .next t →
      t.policy ≠ .unresolved ∧ t.diag ≠ .unresolved ∧
      t.lookups = s.lookups ++ [(.roundingMode, s.cfgMode), (.diagnosticsEnable, s.cfgDiag)])

/-- Once both registers are resolved no operation sees a change of the configuration (rules R86, R89, R131). -/
def Obligations.LaterConfigurationIsUnseen : Prop :=
  ∀ (i : Instr) (s t : State) (p : Policy) (on : Bool) (a b : CfgAnswer),
    s.policy = .resolved p → s.diag = .resolved on → exec i s = .next t →
    exec i { s with cfgMode := a, cfgDiag := b } = .next { t with cfgMode := a, cfgDiag := b } ∧
    t.lookups = s.lookups

/-- The hook observes and never alters: with another flag or another diagnostics setting, every operation but
`RESOLVE_DIAG` gives the same responses, policy and latch (rules R39 (3), R117; D18). -/
def Obligations.DiagnosticsNeverAlterResults : Prop :=
  ∀ (i : Instr) (s t : State) (d : DiagReg) (a : CfgAnswer), i ≠ .resolveDiag → exec i s = .next t →
    ∃ u, exec i { s with diag := d, cfgDiag := a } = .next u ∧
      u.responses = t.responses ∧ u.policy = t.policy ∧ u.fault = t.fault

/-- `APPLY` dispatches: under the single-rounding policy it answers as `SCALE_SINGLE`, under round-to-even as
`SCALE_RTE`, on all operands (rule R96). -/
def Obligations.ApplyAnswersAsTheSelectedScaler : Prop :=
  ∀ (x m sh : Word) (s : State), s.fault = .none →
    (s.policy = .resolved .singleRounding → ∃ t u, exec (.apply x m sh) s = .next t ∧
      exec (.scaleSingle x m sh) s = .next u ∧ t.responses = u.responses ∧ t.fault = u.fault) ∧
    (s.policy = .resolved .roundToEven → ∃ t u, exec (.apply x m sh) s = .next t ∧
      exec (.scaleRte x m sh) s = .next u ∧ t.responses = u.responses ∧ t.fault = u.fault)

/-- Under the round-to-even policy no legal multiplier influences `APPLY`'s answer, and every `shift <= 0` raises and
so stops the block for whatever comes next (rule R132). -/
def Obligations.RoundToEvenPolicyChangesLegality : Prop :=
  ∀ (x m sh : Word) (s : State), s.fault = .none → s.policy = .resolved .roundToEven →
    (∀ m' : Word, 0 ≤ m.toInt → 0 ≤ m'.toInt → ∃ t u, exec (.apply x m sh) s = .next t ∧
      exec (.apply x m' sh) s = .next u ∧ t.responses = u.responses ∧ t.fault = u.fault) ∧
    (sh.toInt ≤ 0 → ∃ t, exec (.apply x m sh) s = .next t ∧ t.fault = .cause .preconditionViolation ∧
      ∀ j, exec j t = .fault (.latched .preconditionViolation))

/-- FRAME of the three direct scalers: no register but the latch, no setting, input, lookup or event changes; exactly
one response is added, to the sender; the latch changes exactly as that response says (rules R62, R67, R79, R80, R82). -/
def Obligations.DirectScalersFrame : Prop :=
  ∀ (x m sh : Word) (s t : State),
    ∀ i ∈ [Instr.scaleSingle x m sh, Instr.scaleRte x m sh, Instr.scaleRteIntent x m sh], exec i s = .next t →
    t.policy = s.policy ∧ t.diag = s.diag ∧ t.cfgMode = s.cfgMode ∧ t.cfgDiag = s.cfgDiag ∧
    t.inputs = s.inputs ∧ t.client = s.client ∧ t.lookups = s.lookups ∧ t.events = s.events ∧
    ((∃ v, t.responses = s.responses ++ [(s.client, .ok v)] ∧ t.fault = s.fault) ∨
      ∃ e, t.responses = s.responses ++ [(s.client, .exception e)] ∧ t.fault = .cause e)

/-- FRAME of the two resolving operations: the latch, the settings and the inputs never change, each touches its own
register only, only the policy's may warn, and exactly one OK response is added (rules R87, R90, R91). -/
def Obligations.ResolvingOperationsFrame : Prop :=
  ∀ s t : State,
    (exec .resolvePolicy s = .next t →
      t.diag = s.diag ∧ t.fault = s.fault ∧ t.cfgMode = s.cfgMode ∧ t.cfgDiag = s.cfgDiag ∧ t.inputs = s.inputs ∧
      t.client = s.client ∧ (t.events = s.events ∨ t.events = s.events ++ [.warning]) ∧
      (s.policy ≠ .unresolved → t.policy = s.policy ∧ t.lookups = s.lookups ∧ t.events = s.events) ∧
      ∃ v, t.responses = s.responses ++ [(s.client, .ok v)] ∧ v ≠ 0#32) ∧
    (exec .resolveDiag s = .next t →
      t.policy = s.policy ∧ t.fault = s.fault ∧ t.cfgMode = s.cfgMode ∧ t.cfgDiag = s.cfgDiag ∧ t.inputs = s.inputs ∧
      t.client = s.client ∧ t.events = s.events ∧
      (s.diag ≠ .unresolved → t.diag = s.diag ∧ t.lookups = s.lookups) ∧
      ∃ v, t.responses = s.responses ++ [(s.client, .ok v)])

/-- FRAME of `APPLY`: the settings and the inputs never change; each register, where resolved, keeps its value and its key
is not looked up; earlier events stay, and after them come at most a warning, only where the policy was unresolved, then,
only with the flag on, the hook's; exactly one response is added, to the sender; the latch changes exactly as that response
says; both registers end resolved (rules R95, R97, R98). -/
def Obligations.ApplyFrame : Prop :=
  ∀ (x m sh : Word) (s t : State), exec (.apply x m sh) s = .next t →
    t.cfgMode = s.cfgMode ∧ t.cfgDiag = s.cfgDiag ∧ t.inputs = s.inputs ∧ t.client = s.client ∧
    (s.policy ≠ .unresolved → t.policy = s.policy) ∧ (s.diag ≠ .unresolved → t.diag = s.diag) ∧
    t.policy ≠ .unresolved ∧ t.diag ≠ .unresolved ∧
    (∃ k₀ k₁, t.lookups = s.lookups ++ k₀ ++ k₁ ∧
      (s.policy ≠ .unresolved → k₀ = []) ∧ (s.policy = .unresolved → k₀ = [(.roundingMode, s.cfgMode)]) ∧
      (s.diag ≠ .unresolved → k₁ = []) ∧ (s.diag = .unresolved → k₁ = [(.diagnosticsEnable, s.cfgDiag)])) ∧
    (∃ w h, t.events = s.events ++ w ++ h ∧
      (w = [] ∨ w = [.warning] ∧ s.policy = .unresolved) ∧
      (t.diag = .resolved false → h = []) ∧
      (t.diag = .resolved true → h = [.before x m sh] ∨ ∃ v, h = [.before x m sh, .after v])) ∧
    ((∃ v, t.responses = s.responses ++ [(s.client, .ok v)] ∧ t.fault = s.fault) ∨
      ∃ e, t.responses = s.responses ++ [(s.client, .exception e)] ∧ t.fault = .cause e)

/-! ### The machine -/

/-- Every step keeps the invariant: the registers are what the last lookups said, one warning for each unrecognised
value looked up, hook events in pairs, a set latch shows in the last response, and every requester exists (rules R23,
R86, R89, R92, R97, R111; the latch is D7). -/
def Obligations.EveryStepKeepsTheInvariant : Prop :=
  ∀ s t : State, Inv s → step s = .next t → Inv t

/-- The invariant holds right after reset (rule R126; the ports' empty histories are logs 3 to 5). -/
def Obligations.ResetMeetsTheInvariant : Prop := Inv State.reset

/-- Until the next reset a resolved register keeps its value, however many steps run and whatever the host does to the
configuration (rules R20, R22, R26 (2)). -/
def Obligations.ResolvedRegistersKeepTheirValue : Prop :=
  ∀ (n : Nat) (s t : State), NoReset s → Host.Core.run core n s = .next t →
    (s.policy ≠ .unresolved → t.policy = s.policy) ∧ (s.diag ≠ .unresolved → t.diag = s.diag)

/-- Until the next reset each key is looked up at most once more, and only if its register was unresolved; and at most
one warning is emitted (rules R32, R41, R92). -/
def Obligations.OneLookupPerKeyAndOneWarningPerLifetime : Prop :=
  ∀ (n : Nat) (s t : State), NoReset s → Host.Core.run core n s = .next t →
    lookupCount .roundingMode t = lookupCount .roundingMode s +
      (if s.policy = .unresolved ∧ t.policy ≠ .unresolved then 1 else 0) ∧
    lookupCount .diagnosticsEnable t = lookupCount .diagnosticsEnable s +
      (if s.diag = .unresolved ∧ t.diag ≠ .unresolved then 1 else 0) ∧
    warningCount s ≤ warningCount t ∧
    warningCount t ≤ warningCount s + (if s.policy = .unresolved then 1 else 0)

/-- Once the latch is set nothing of the block changes until reset, no port moves, and no run goes past the host's pending
changes of the configuration (rules R26 (3) and (4), R111; D7). -/
def Obligations.SetLatchFreezesTheBlock : Prop :=
  ∀ (n : Nat) (s t : State) (e : Exception), s.fault = .cause e → NoReset s → Host.Core.run core n s = .next t →
    t.fault = s.fault ∧ t.policy = s.policy ∧ t.diag = s.diag ∧ t.lookups = s.lookups ∧
    t.events = s.events ∧ t.responses = s.responses ∧
    n ≤ s.inputs.length ∧ ∀ i ∈ s.inputs.take n, ∃ k a, i = .setCfg k a

/-- A run that does not stop has answered every request it took, each exactly once, to its sender, in the order taken;
histories only grow (rules R31, R34, R39). Across a reset, that requests in flight stay pending is the model's choice
(log 13), and so is that an unfaulted block with nothing pending waits (log 6). -/
def Obligations.EveryRequestAnsweredOnceInOrder : Prop :=
  ∀ (n : Nat) (s t : State), Host.Core.run core n s = .next t →
    t.inputs = s.inputs.drop n ∧
    t.responses.map Prod.fst = s.responses.map Prod.fst ++ (s.inputs.take n).filterMap Input.requester? ∧
    s.responses <+: t.responses ∧ s.events <+: t.events ∧ s.lookups <+: t.lookups

/-- Progress: an unfaulted block answers in one step any decodable request at its port, whatever the operand fields of a
`RESOLVE_*` hold, and each of the six operations has such a word (rules R46, R135; fairness is D22). -/
def Obligations.UnfaultedBlockAnswersAtOnce : Prop :=
  ∀ (i : Instr) (s : State) (r : Nat) (rest : List Input), s.fault = .none →
    (∀ w : ReqWord, decode w = .ok i → s.inputs = .request r w :: rest →
      ∃ t rsp, step s = .next t ∧ t.inputs = rest ∧ t.responses = s.responses ++ [(r, rsp)] ∧
        (t.fault = .none ↔ ∃ v, rsp = .ok v)) ∧
    ∃ w : ReqWord, decode w = .ok i

/-- Who writes a register: a step that changes `REG.POLICY` is reset, or an `APPLY` or `RESOLVE_POLICY` that resolves
it; `REG.DIAG` likewise; a step that changes `REG.FAULT` is reset, or an operation that raises (rules R19 to R23;
D5 to D7). -/
def Obligations.OnlyNamedTransitionsWriteRegisters : Prop :=
  ∀ s t : State, step s = .next t →
    (t.policy ≠ s.policy → (∃ rest, s.inputs = .reset :: rest) ∨ s.policy = .unresolved ∧
      ∃ r w rest, s.inputs = .request r w :: rest ∧
        (decode w = .ok .resolvePolicy ∨ ∃ x m sh, decode w = .ok (.apply x m sh))) ∧
    (t.diag ≠ s.diag → (∃ rest, s.inputs = .reset :: rest) ∨ s.diag = .unresolved ∧
      ∃ r w rest, s.inputs = .request r w :: rest ∧
        (decode w = .ok .resolveDiag ∨ ∃ x m sh, decode w = .ok (.apply x m sh))) ∧
    (t.fault ≠ s.fault → (∃ rest, s.inputs = .reset :: rest) ∨ s.fault = .none ∧
      ∃ r e, t.fault = .cause e ∧ t.responses = s.responses ++ [(r, .exception e)])
end

