-- ==== Sys2Proof/Laws/Arith.lean ====
section
/-! SUPPORT. The arithmetic primitives as integer arithmetic (rules R7, R11, R12, R13) and one lemma per scaler that
unfolds it once. -/

namespace Sys2Proof.Machine

/-- The arithmetic shift is floor division (rule R11). -/
theorem asr_eq (v : Int) (n : Nat) : asr v n = v / 2 ^ n := by
  unfold asr; rw [Int.shiftRight_eq_div_pow]; norm_cast

theorem oneShl_eq (n : Nat) : oneShl n = 2 ^ n := by
  unfold oneShl; rw [Nat.one_shiftLeft]; norm_cast

theorem toInt_range (w : Word) : -2147483648 ≤ w.toInt ∧ w.toInt ≤ 2147483647 := by
  have h1 := BitVec.two_mul_toInt_lt (x := w)
  have h2 := BitVec.le_two_mul_toInt (x := w)
  omega

theorem fits32_iff (v : Int) : fits32 v = true ↔ -2147483648 ≤ v ∧ v ≤ 2147483647 := by
  simp [fits32]

/-- Narrowing a value that fits keeps the integer (rule R13). -/
theorem narrow32_toInt {v : Int} (h : fits32 v = true) : (narrow32 v).toInt = v := by
  obtain ⟨h1, h2⟩ := (fits32_iff v).1 h
  unfold narrow32
  rw [BitVec.toInt_ofInt]
  exact Int.bmod_eq_of_le (by omega) (by omega)

theorem checkedNarrow_fits {v : Int} (h : fits32 v = true) (rc : RangeCheck) :
    checkedNarrow rc v = .ok (narrow32 v) := by
  unfold checkedNarrow; rw [if_pos h]

theorem checkedNarrow_wide {v : Int} (h : fits32 v = false) (rc : RangeCheck) :
    checkedNarrow rc v = .error .rangeAssertionFailure := by
  unfold checkedNarrow; rw [if_neg (by simp [h])]; rfl

theorem legalForSingle_iff (m sh : Word) :
    legalForSingle m sh = true ↔ 0 ≤ m.toInt ∧ -31 ≤ sh.toInt ∧ sh.toInt ≤ 7 := by
  simp [legalForSingle, and_assoc]

theorem legalForLiteral_iff (m sh : Word) :
    legalForLiteral m sh = true ↔ 0 ≤ m.toInt ∧ 1 ≤ sh.toInt ∧ sh.toInt ≤ 7 := by
  simp [legalForLiteral, legalForSingle]
  omega

/-- The total shift as an integer (rule R61 step 1). -/
theorem totalShift_eq {m sh : Word} (h : legalForSingle m sh = true) :
    (totalShift sh : Int) = 31 - sh.toInt ∧ 24 ≤ totalShift sh ∧ totalShift sh ≤ 62 := by
  obtain ⟨_, h1, h2⟩ := (legalForSingle_iff m sh).1 h
  unfold totalShift
  omega

theorem roundToEven_eq (v : Int) {a : Nat} (h : 1 ≤ a) :
    roundToEven v a = .ok ((v + v / 2 ^ a % 2 + (2 ^ (a - 1) - 1)) / 2 ^ a) := by
  unfold roundToEven evenSum evenBit evenBias
  rw [if_pos h, asr_eq, asr_eq, oneShl_eq]

theorem scaleSingle_legal {m sh : Word} (h : legalForSingle m sh = true) (rc : RangeCheck) (x : Word) :
    scaleSingle rc x m sh = checkedNarrow rc (singleResult64 x m sh) := by
  unfold scaleSingle; rw [if_pos h]

theorem scaleSingle_illegal {m sh : Word} (h : legalForSingle m sh = false) (rc : RangeCheck) (x : Word) :
    scaleSingle rc x m sh = .error .preconditionViolation := by
  unfold scaleSingle; rw [if_neg (by simp [h])]

theorem singleResult64_eq (x m sh : Word) :
    singleResult64 x m sh = (x.toInt * m.toInt + 2 ^ (totalShift sh - 1)) / 2 ^ totalShift sh := by
  unfold singleResult64 biasedProduct roundConstant exactProduct
  rw [asr_eq, oneShl_eq]

theorem scaleRteLiteral_illegal {m sh : Word} (h : legalForLiteral m sh = false) (x : Word) :
    scaleRteLiteral x m sh = .error .preconditionViolation := by
  unfold scaleRteLiteral; rw [if_neg (by simp [h])]

theorem scaleRteIntent_illegal {m sh : Word} (h : legalForSingle m sh = false) (rc : RangeCheck) (x : Word) :
    scaleRteIntent rc x m sh = .error .preconditionViolation := by
  unfold scaleRteIntent; rw [if_neg (by simp [h])]

/-- The literal form on legal operands: the primitive's formula, narrowed (rule R75). -/
theorem scaleRteLiteral_legal {m sh : Word} (h : legalForLiteral m sh = true) (x : Word) :
    scaleRteLiteral x m sh = .ok (narrow32
      ((x.toInt * sh.toInt + x.toInt * sh.toInt / 2 ^ sh.toInt.toNat % 2 + (2 ^ (sh.toInt.toNat - 1) - 1))
        / 2 ^ sh.toInt.toNat)) := by
  have hs := (legalForLiteral_iff m sh).1 h
  unfold scaleRteLiteral literalAccumulator
  rw [if_pos h, roundToEven_eq _ (by omega)]
  rfl

/-- The intent form on legal operands: the primitive's formula, range-checked (rules R77, R78). -/
theorem scaleRteIntent_legal {m sh : Word} (h : legalForSingle m sh = true) (rc : RangeCheck) (x : Word) :
    scaleRteIntent rc x m sh = checkedNarrow rc
      ((x.toInt * m.toInt + x.toInt * m.toInt / 2 ^ totalShift sh % 2 + (2 ^ (totalShift sh - 1) - 1))
        / 2 ^ totalShift sh) := by
  have ht := totalShift_eq h
  unfold scaleRteIntent exactProduct
  rw [if_pos h, roundToEven_eq _ (by omega)]
  rfl

end Sys2Proof.Machine
end

