-- ==== Sys2Proof/Laws/Decode.lean ====
section
/-! SUPPORT. The request word as a number, its fields, and its byte form (rules R35, R45, R53). -/

namespace Sys2Proof

theorem append_toNat {n m : Nat} (a : BitVec n) (b : BitVec m) :
    (a ++ b).toNat = a.toNat * 2 ^ m + b.toNat := by
  rw [BitVec.toNat_append, ← Nat.shiftLeft_add_eq_or_of_lt b.isLt, Nat.shiftLeft_eq]

/-- A packed request is the sum of its fields at their places (rule R53). -/
theorem pack_toNat (op : BitVec 3) (x m sh : Word) :
    (pack op x m sh).toNat = op.toNat * 2 ^ 96 + sh.toNat * 2 ^ 64 + m.toNat * 2 ^ 32 + x.toNat := by
  unfold pack
  simp only [append_toNat, BitVec.toNat_ofNat]
  omega

theorem field_toNat (w : ReqWord) (lo n : Nat) : (w.extractLsb' lo n).toNat = w.toNat / 2 ^ lo % 2 ^ n := by
  rw [BitVec.extractLsb'_toNat, Nat.shiftRight_eq_div_pow]

theorem xField_toNat (w : ReqWord) : (xField w).toNat = w.toNat % 2 ^ 32 := by
  simp [xField]

theorem multiplierField_toNat (w : ReqWord) : (multiplierField w).toNat = w.toNat / 2 ^ 32 % 2 ^ 32 :=
  field_toNat w 32 32

theorem shiftField_toNat (w : ReqWord) : (shiftField w).toNat = w.toNat / 2 ^ 64 % 2 ^ 32 :=
  field_toNat w 64 32

theorem opField_toNat (w : ReqWord) : (opField w).toNat = w.toNat / 2 ^ 96 % 2 ^ 3 := field_toNat w 96 3

theorem rsvField_toNat (w : ReqWord) : (rsvField w).toNat = w.toNat / 2 ^ 99 % 2 ^ 29 := field_toNat w 99 29

@[simp] theorem xField_pack (op : BitVec 3) (x m sh : Word) : xField (pack op x m sh) = x := by
  apply BitVec.eq_of_toNat_eq
  rw [xField_toNat, pack_toNat]
  have := x.isLt
  omega

@[simp] theorem multiplierField_pack (op : BitVec 3) (x m sh : Word) : multiplierField (pack op x m sh) = m := by
  apply BitVec.eq_of_toNat_eq
  rw [multiplierField_toNat, pack_toNat]
  have := x.isLt; have := m.isLt
  omega

@[simp] theorem shiftField_pack (op : BitVec 3) (x m sh : Word) : shiftField (pack op x m sh) = sh := by
  apply BitVec.eq_of_toNat_eq
  rw [shiftField_toNat, pack_toNat]
  have := x.isLt; have := m.isLt; have := sh.isLt
  omega

@[simp] theorem opField_pack (op : BitVec 3) (x m sh : Word) : opField (pack op x m sh) = op := by
  apply BitVec.eq_of_toNat_eq
  rw [opField_toNat, pack_toNat]
  have := x.isLt; have := m.isLt; have := sh.isLt; have := op.isLt
  omega

@[simp] theorem rsvField_pack (op : BitVec 3) (x m sh : Word) : rsvField (pack op x m sh) = 0#29 := by
  apply BitVec.eq_of_toNat_eq
  rw [rsvField_toNat, pack_toNat, BitVec.toNat_ofNat]
  have := x.isLt; have := m.isLt; have := sh.isLt; have := op.isLt
  omega

/-! ### Bytes -/

theorem bytesOf_length (n w : Nat) : (bytesOf n w).length = n := by
  induction n generalizing w with
  | zero => rfl
  | succ n ih => simp [bytesOf, ih]

/-- Reading back the `n` low bytes of `w` gives the low `8 n` bits of `w` (rule R35). -/
theorem natOfBytes_bytesOf (n w : Nat) : natOfBytes (bytesOf n w) = w % 256 ^ n := by
  induction n generalizing w with
  | zero => simp [bytesOf, natOfBytes, Nat.mod_one]
  | succ n ih =>
    rw [bytesOf, natOfBytes, ih, BitVec.toNat_ofNat, pow_succ' 256 n, Nat.mod_mul]

end Sys2Proof
end

