-- ==== Sys2Proof/Laws/State.lean ====
section
/-! SUPPORT. One lemma per field per update of the state, so that no later proof unfolds a record update. -/

namespace Sys2Proof.Machine

variable (s : State)

@[simp] theorem State.setPolicy_policy (p : PolicyReg) : (s.setPolicy p).policy = p := rfl
@[simp] theorem State.setPolicy_diag (p : PolicyReg) : (s.setPolicy p).diag = s.diag := rfl
@[simp] theorem State.setPolicy_fault (p : PolicyReg) : (s.setPolicy p).fault = s.fault := rfl
@[simp] theorem State.setPolicy_cfgMode (p : PolicyReg) : (s.setPolicy p).cfgMode = s.cfgMode := rfl
@[simp] theorem State.setPolicy_cfgDiag (p : PolicyReg) : (s.setPolicy p).cfgDiag = s.cfgDiag := rfl
@[simp] theorem State.setPolicy_inputs (p : PolicyReg) : (s.setPolicy p).inputs = s.inputs := rfl
@[simp] theorem State.setPolicy_client (p : PolicyReg) : (s.setPolicy p).client = s.client := rfl
@[simp] theorem State.setPolicy_lookups (p : PolicyReg) : (s.setPolicy p).lookups = s.lookups := rfl
@[simp] theorem State.setPolicy_events (p : PolicyReg) : (s.setPolicy p).events = s.events := rfl
@[simp] theorem State.setPolicy_responses (p : PolicyReg) : (s.setPolicy p).responses = s.responses := rfl

@[simp] theorem State.setDiag_policy (d : DiagReg) : (s.setDiag d).policy = s.policy := rfl
@[simp] theorem State.setDiag_diag (d : DiagReg) : (s.setDiag d).diag = d := rfl
@[simp] theorem State.setDiag_fault (d : DiagReg) : (s.setDiag d).fault = s.fault := rfl
@[simp] theorem State.setDiag_cfgMode (d : DiagReg) : (s.setDiag d).cfgMode = s.cfgMode := rfl
@[simp] theorem State.setDiag_cfgDiag (d : DiagReg) : (s.setDiag d).cfgDiag = s.cfgDiag := rfl
@[simp] theorem State.setDiag_inputs (d : DiagReg) : (s.setDiag d).inputs = s.inputs := rfl
@[simp] theorem State.setDiag_client (d : DiagReg) : (s.setDiag d).client = s.client := rfl
@[simp] theorem State.setDiag_lookups (d : DiagReg) : (s.setDiag d).lookups = s.lookups := rfl
@[simp] theorem State.setDiag_events (d : DiagReg) : (s.setDiag d).events = s.events := rfl
@[simp] theorem State.setDiag_responses (d : DiagReg) : (s.setDiag d).responses = s.responses := rfl

@[simp] theorem State.setFault_policy (f : FaultReg) : (s.setFault f).policy = s.policy := rfl
@[simp] theorem State.setFault_diag (f : FaultReg) : (s.setFault f).diag = s.diag := rfl
@[simp] theorem State.setFault_fault (f : FaultReg) : (s.setFault f).fault = f := rfl
@[simp] theorem State.setFault_cfgMode (f : FaultReg) : (s.setFault f).cfgMode = s.cfgMode := rfl
@[simp] theorem State.setFault_cfgDiag (f : FaultReg) : (s.setFault f).cfgDiag = s.cfgDiag := rfl
@[simp] theorem State.setFault_inputs (f : FaultReg) : (s.setFault f).inputs = s.inputs := rfl
@[simp] theorem State.setFault_client (f : FaultReg) : (s.setFault f).client = s.client := rfl
@[simp] theorem State.setFault_lookups (f : FaultReg) : (s.setFault f).lookups = s.lookups := rfl
@[simp] theorem State.setFault_events (f : FaultReg) : (s.setFault f).events = s.events := rfl
@[simp] theorem State.setFault_responses (f : FaultReg) : (s.setFault f).responses = s.responses := rfl

@[simp] theorem State.setInputs_policy (l : List Input) : (s.setInputs l).policy = s.policy := rfl
@[simp] theorem State.setInputs_diag (l : List Input) : (s.setInputs l).diag = s.diag := rfl
@[simp] theorem State.setInputs_fault (l : List Input) : (s.setInputs l).fault = s.fault := rfl
@[simp] theorem State.setInputs_cfgMode (l : List Input) : (s.setInputs l).cfgMode = s.cfgMode := rfl
@[simp] theorem State.setInputs_cfgDiag (l : List Input) : (s.setInputs l).cfgDiag = s.cfgDiag := rfl
@[simp] theorem State.setInputs_inputs (l : List Input) : (s.setInputs l).inputs = l := rfl
@[simp] theorem State.setInputs_client (l : List Input) : (s.setInputs l).client = s.client := rfl
@[simp] theorem State.setInputs_lookups (l : List Input) : (s.setInputs l).lookups = s.lookups := rfl
@[simp] theorem State.setInputs_events (l : List Input) : (s.setInputs l).events = s.events := rfl
@[simp] theorem State.setInputs_responses (l : List Input) : (s.setInputs l).responses = s.responses := rfl

@[simp] theorem State.setClient_policy (r : Nat) : (s.setClient r).policy = s.policy := rfl
@[simp] theorem State.setClient_diag (r : Nat) : (s.setClient r).diag = s.diag := rfl
@[simp] theorem State.setClient_fault (r : Nat) : (s.setClient r).fault = s.fault := rfl
@[simp] theorem State.setClient_cfgMode (r : Nat) : (s.setClient r).cfgMode = s.cfgMode := rfl
@[simp] theorem State.setClient_cfgDiag (r : Nat) : (s.setClient r).cfgDiag = s.cfgDiag := rfl
@[simp] theorem State.setClient_inputs (r : Nat) : (s.setClient r).inputs = s.inputs := rfl
@[simp] theorem State.setClient_client (r : Nat) : (s.setClient r).client = r := rfl
@[simp] theorem State.setClient_lookups (r : Nat) : (s.setClient r).lookups = s.lookups := rfl
@[simp] theorem State.setClient_events (r : Nat) : (s.setClient r).events = s.events := rfl
@[simp] theorem State.setClient_responses (r : Nat) : (s.setClient r).responses = s.responses := rfl

@[simp] theorem State.pushLookup_policy (k : CfgKey) (a : CfgAnswer) : (s.pushLookup k a).policy = s.policy := rfl
@[simp] theorem State.pushLookup_diag (k : CfgKey) (a : CfgAnswer) : (s.pushLookup k a).diag = s.diag := rfl
@[simp] theorem State.pushLookup_fault (k : CfgKey) (a : CfgAnswer) : (s.pushLookup k a).fault = s.fault := rfl
@[simp] theorem State.pushLookup_cfgMode (k : CfgKey) (a : CfgAnswer) : (s.pushLookup k a).cfgMode = s.cfgMode := rfl
@[simp] theorem State.pushLookup_cfgDiag (k : CfgKey) (a : CfgAnswer) : (s.pushLookup k a).cfgDiag = s.cfgDiag := rfl
@[simp] theorem State.pushLookup_inputs (k : CfgKey) (a : CfgAnswer) : (s.pushLookup k a).inputs = s.inputs := rfl
@[simp] theorem State.pushLookup_client (k : CfgKey) (a : CfgAnswer) : (s.pushLookup k a).client = s.client := rfl
@[simp] theorem State.pushLookup_lookups (k : CfgKey) (a : CfgAnswer) : (s.pushLookup k a).lookups = s.lookups ++ [(k, a)] := rfl
@[simp] theorem State.pushLookup_events (k : CfgKey) (a : CfgAnswer) : (s.pushLookup k a).events = s.events := rfl
@[simp] theorem State.pushLookup_responses (k : CfgKey) (a : CfgAnswer) : (s.pushLookup k a).responses = s.responses := rfl

@[simp] theorem State.pushEvent_policy (e : Event) : (s.pushEvent e).policy = s.policy := rfl
@[simp] theorem State.pushEvent_diag (e : Event) : (s.pushEvent e).diag = s.diag := rfl
@[simp] theorem State.pushEvent_fault (e : Event) : (s.pushEvent e).fault = s.fault := rfl
@[simp] theorem State.pushEvent_cfgMode (e : Event) : (s.pushEvent e).cfgMode = s.cfgMode := rfl
@[simp] theorem State.pushEvent_cfgDiag (e : Event) : (s.pushEvent e).cfgDiag = s.cfgDiag := rfl
@[simp] theorem State.pushEvent_inputs (e : Event) : (s.pushEvent e).inputs = s.inputs := rfl
@[simp] theorem State.pushEvent_client (e : Event) : (s.pushEvent e).client = s.client := rfl
@[simp] theorem State.pushEvent_lookups (e : Event) : (s.pushEvent e).lookups = s.lookups := rfl
@[simp] theorem State.pushEvent_events (e : Event) : (s.pushEvent e).events = s.events ++ [e] := rfl
@[simp] theorem State.pushEvent_responses (e : Event) : (s.pushEvent e).responses = s.responses := rfl

@[simp] theorem State.pushResponse_policy (r : Response) : (s.pushResponse r).policy = s.policy := rfl
@[simp] theorem State.pushResponse_diag (r : Response) : (s.pushResponse r).diag = s.diag := rfl
@[simp] theorem State.pushResponse_fault (r : Response) : (s.pushResponse r).fault = s.fault := rfl
@[simp] theorem State.pushResponse_cfgMode (r : Response) : (s.pushResponse r).cfgMode = s.cfgMode := rfl
@[simp] theorem State.pushResponse_cfgDiag (r : Response) : (s.pushResponse r).cfgDiag = s.cfgDiag := rfl
@[simp] theorem State.pushResponse_inputs (r : Response) : (s.pushResponse r).inputs = s.inputs := rfl
@[simp] theorem State.pushResponse_client (r : Response) : (s.pushResponse r).client = s.client := rfl
@[simp] theorem State.pushResponse_lookups (r : Response) : (s.pushResponse r).lookups = s.lookups := rfl
@[simp] theorem State.pushResponse_events (r : Response) : (s.pushResponse r).events = s.events := rfl
@[simp] theorem State.pushResponse_responses (r : Response) : (s.pushResponse r).responses = s.responses ++ [(s.client, r)] := rfl

@[simp] theorem State.setCfg_policy (k : CfgKey) (a : CfgAnswer) : (s.setCfg k a).policy = s.policy := by
  cases k <;> rfl
@[simp] theorem State.setCfg_diag (k : CfgKey) (a : CfgAnswer) : (s.setCfg k a).diag = s.diag := by
  cases k <;> rfl
@[simp] theorem State.setCfg_fault (k : CfgKey) (a : CfgAnswer) : (s.setCfg k a).fault = s.fault := by
  cases k <;> rfl
@[simp] theorem State.setCfg_roundingMode_cfgMode (a : CfgAnswer) : (s.setCfg .roundingMode a).cfgMode = a := rfl
@[simp] theorem State.setCfg_diagnosticsEnable_cfgMode (a : CfgAnswer) : (s.setCfg .diagnosticsEnable a).cfgMode = s.cfgMode := rfl
@[simp] theorem State.setCfg_diagnosticsEnable_cfgDiag (a : CfgAnswer) : (s.setCfg .diagnosticsEnable a).cfgDiag = a := rfl
@[simp] theorem State.setCfg_roundingMode_cfgDiag (a : CfgAnswer) : (s.setCfg .roundingMode a).cfgDiag = s.cfgDiag := rfl
@[simp] theorem State.setCfg_inputs (k : CfgKey) (a : CfgAnswer) : (s.setCfg k a).inputs = s.inputs := by
  cases k <;> rfl
@[simp] theorem State.setCfg_client (k : CfgKey) (a : CfgAnswer) : (s.setCfg k a).client = s.client := by
  cases k <;> rfl
@[simp] theorem State.setCfg_lookups (k : CfgKey) (a : CfgAnswer) : (s.setCfg k a).lookups = s.lookups := by
  cases k <;> rfl
@[simp] theorem State.setCfg_events (k : CfgKey) (a : CfgAnswer) : (s.setCfg k a).events = s.events := by
  cases k <;> rfl
@[simp] theorem State.setCfg_responses (k : CfgKey) (a : CfgAnswer) : (s.setCfg k a).responses = s.responses := by
  cases k <;> rfl

end Sys2Proof.Machine
end

