-- ==== Sys2Proof/Laws/Ops.lean ====
section
/-! SUPPORT. What each shared operation can do, once: callers cite these instead of unfolding (rules R32, R86, R89,
R95, R110, R111, R126). -/

namespace Sys2Proof.Machine

/-! ### Guard, events, responses, exception entry, reset -/

theorem unlessFaulted_good {s : State} (h : s.fault = .none) (k : State → Result) :
    unlessFaulted s k = k s := by
  unfold unlessFaulted; rw [h]

theorem unlessFaulted_latched {s : State} {e : Exception} (h : s.fault = .cause e) (k : State → Result) :
    unlessFaulted s k = .fault (.latched e) := by
  unfold unlessFaulted; rw [h]

/-- A guarded operation that answers a next state ran in an unfaulted state. -/
theorem unlessFaulted_next {s t : State} {k : State → Result} (h : unlessFaulted s k = .next t) :
    s.fault = .none ∧ k s = .next t := by
  cases hf : s.fault with
  | none => exact ⟨rfl, by rw [unlessFaulted_good hf] at h; exact h⟩
  | cause e => rw [unlessFaulted_latched hf] at h; cases h

theorem emitIf_eq (b : Bool) (e : Event) (s : State) :
    emitIf b e s = { s with events := s.events ++ if b then [e] else [] } := by
  cases b
  · show s = _
    simp
  · rfl

theorem respondOk_eq (r : Word) (s : State) :
    respondOk r s = { s with responses := s.responses ++ [(s.client, .ok r)] } := rfl

theorem raise_eq (e : Exception) (s : State) :
    raise e s = { s with fault := .cause e, responses := s.responses ++ [(s.client, .exception e)] } := rfl

theorem hostReset_eq (s : State) :
    hostReset s = { s with policy := .unresolved, diag := .unresolved, fault := .none } := rfl

theorem conclude_ok (v : Word) (s : State) : conclude (.ok v) s = respondOk v s := rfl

theorem conclude_error (e : Exception) (s : State) : conclude (.error e) s = raise e s := rfl

/-! ### The resolving steps -/

theorem resolvePolicy_resolved {s : State} {p : Policy} (h : s.policy = .resolved p) :
    resolvePolicy s = (p, s) := by
  unfold resolvePolicy; rw [h]

theorem resolvePolicy_unresolved {s : State} (h : s.policy = .unresolved) :
    resolvePolicy s =
      ((classifyMode s.cfgMode).1,
        { s with
          policy := .resolved (classifyMode s.cfgMode).1
          lookups := s.lookups ++ [(.roundingMode, s.cfgMode)]
          events := s.events ++ if (classifyMode s.cfgMode).2 then [Event.warning] else [] }) := by
  unfold resolvePolicy; rw [h]
  simp only [emitIf_eq]; rfl

theorem resolveDiag_resolved {s : State} {on : Bool} (h : s.diag = .resolved on) :
    resolveDiag s = (on, s) := by
  unfold resolveDiag; rw [h]

theorem resolveDiag_unresolved {s : State} (h : s.diag = .unresolved) :
    resolveDiag s =
      (classifyDiag s.cfgDiag,
        { s with
          diag := .resolved (classifyDiag s.cfgDiag)
          lookups := s.lookups ++ [(.diagnosticsEnable, s.cfgDiag)] }) := by
  unfold resolveDiag; rw [h]; rfl

/-- Everything `resolve_policy` can do: nothing, or one lookup, one write and at most one warning. -/
theorem resolvePolicy_cases (s : State) :
    (∃ p, s.policy = .resolved p ∧ resolvePolicy s = (p, s)) ∨
    (s.policy = .unresolved ∧ resolvePolicy s =
      ((classifyMode s.cfgMode).1,
        { s with
          policy := .resolved (classifyMode s.cfgMode).1
          lookups := s.lookups ++ [(.roundingMode, s.cfgMode)]
          events := s.events ++ if (classifyMode s.cfgMode).2 then [Event.warning] else [] })) := by
  cases h : s.policy with
  | resolved p => exact .inl ⟨p, rfl, resolvePolicy_resolved h⟩
  | unresolved => exact .inr ⟨rfl, resolvePolicy_unresolved h⟩

/-- Everything `resolve_diag` can do: nothing, or one lookup and one write. -/
theorem resolveDiag_cases (s : State) :
    (∃ on, s.diag = .resolved on ∧ resolveDiag s = (on, s)) ∨
    (s.diag = .unresolved ∧ resolveDiag s =
      (classifyDiag s.cfgDiag,
        { s with
          diag := .resolved (classifyDiag s.cfgDiag)
          lookups := s.lookups ++ [(.diagnosticsEnable, s.cfgDiag)] })) := by
  cases h : s.diag with
  | resolved on => exact .inl ⟨on, rfl, resolveDiag_resolved h⟩
  | unresolved => exact .inr ⟨rfl, resolveDiag_unresolved h⟩

/-- After `resolve_policy` the register holds the policy it answers. -/
theorem resolvePolicy_policy (s : State) : (resolvePolicy s).2.policy = .resolved (resolvePolicy s).1 := by
  obtain ⟨p, hp, h⟩ | ⟨_, h⟩ := resolvePolicy_cases s
  · rw [h]; exact hp
  · rw [h]

/-- After `resolve_diag` the register holds the flag it answers. -/
theorem resolveDiag_diag (s : State) : (resolveDiag s).2.diag = .resolved (resolveDiag s).1 := by
  obtain ⟨on, hon, h⟩ | ⟨_, h⟩ := resolveDiag_cases s
  · rw [h]; exact hon
  · rw [h]

/-! ### The meanings in an unfaulted state, and in a faulted one -/

theorem execScaleSingle_good {s : State} (h : s.fault = .none) (x m sh : Word) :
    execScaleSingle x m sh s = .next (conclude (scaleSingle Config.rangeCheck x m sh) s) := by
  unfold execScaleSingle; rw [unlessFaulted_good h]

theorem execScaleRte_good {s : State} (h : s.fault = .none) (x m sh : Word) :
    execScaleRte x m sh s = .next (conclude (scaleRteLiteral x m sh) s) := by
  unfold execScaleRte; rw [unlessFaulted_good h]

theorem execScaleRteIntent_good {s : State} (h : s.fault = .none) (x m sh : Word) :
    execScaleRteIntent x m sh s = .next (conclude (scaleRteIntent Config.rangeCheck x m sh) s) := by
  unfold execScaleRteIntent; rw [unlessFaulted_good h]

theorem execResolvePolicy_good {s : State} (h : s.fault = .none) :
    execResolvePolicy s = .next (respondOk (policyAnswer (resolvePolicy s).1) (resolvePolicy s).2) := by
  unfold execResolvePolicy; rw [unlessFaulted_good h]

theorem execResolveDiag_good {s : State} (h : s.fault = .none) :
    execResolveDiag s = .next (respondOk (diagAnswer (resolveDiag s).1) (resolveDiag s).2) := by
  unfold execResolveDiag; rw [unlessFaulted_good h]

theorem execApply_good {s : State} (h : s.fault = .none) (x m sh : Word) :
    execApply x m sh s =
      .next (finishApply (resolveDiag (resolvePolicy s).2).1 (scaleUnder (resolvePolicy s).1 x m sh)
        (emitIf (resolveDiag (resolvePolicy s).2).1 (.before x m sh) (resolveDiag (resolvePolicy s).2).2)) := by
  unfold execApply; rw [unlessFaulted_good h]

end Sys2Proof.Machine
end

