-- ==== Sys2Proof/Laws/Orders.lean ====
section
/-! SUPPORT. What the orders of a source text are (rules R39, R53; U8): every one is a permutation of the text that
keeps what must be kept, and every such permutation is one. -/

namespace Sys2Proof.Machine

/-- Where an item may be put: anywhere but behind one it must precede. -/
theorem mem_insertions {x : AsmItem} {ys zs : List AsmItem} :
    zs ∈ insertions x ys ↔
      ∃ pre post, ys = pre ++ post ∧ zs = pre ++ x :: post ∧ ∀ y ∈ pre, mustPrecede x y = false := by
  induction ys generalizing zs with
  | nil => simp [insertions]
  | cons y ys ih =>
    constructor
    · intro h
      rcases List.mem_cons.1 h with rfl | h
      · exact ⟨[], y :: ys, rfl, rfl, by simp⟩
      · split at h
        · cases h
        · rename_i hxy
          obtain ⟨ws, hws, rfl⟩ := List.mem_map.1 h
          obtain ⟨pre, post, rfl, rfl, hpre⟩ := ih.1 hws
          exact ⟨y :: pre, post, rfl, rfl, List.forall_mem_cons.2 ⟨by simpa using hxy, hpre⟩⟩
    · rintro ⟨pre, post, hys, rfl, hpre⟩
      cases pre with
      | nil => simp only [List.nil_append] at hys; subst hys; exact List.mem_cons_self
      | cons p pre =>
        simp only [List.cons_append, List.cons.injEq] at hys
        obtain ⟨rfl, rfl⟩ := hys
        obtain ⟨hxy, hpre⟩ := List.forall_mem_cons.1 hpre
        refine List.mem_cons_of_mem _ ?_
        simp only [hxy, Bool.false_eq_true, if_false]
        exact List.mem_map.2 ⟨_, ih.2 ⟨pre, post, rfl, rfl, hpre⟩, rfl⟩

/-- The orders of a text whose first item is `x`: an order of the others with `x` put anywhere but behind an item it
must precede. -/
theorem mem_orders_cons {x : AsmItem} {xs zs : List AsmItem} :
    zs ∈ orders (x :: xs) ↔
      ∃ pre post, pre ++ post ∈ orders xs ∧ zs = pre ++ x :: post ∧ ∀ y ∈ pre, mustPrecede x y = false := by
  simp only [orders, List.mem_flatMap, mem_insertions]
  constructor
  · rintro ⟨ys, hys, pre, post, rfl, h⟩
    exact ⟨pre, post, hys, h⟩
  · rintro ⟨pre, post, h, h'⟩
    exact ⟨_, h, pre, post, rfl, h'⟩

/-- No order drops, adds or repeats an item. -/
theorem orders_perm {xs zs : List AsmItem} (h : zs ∈ orders xs) : zs.Perm xs := by
  induction xs generalizing zs with
  | nil => simp [orders] at h; subst h; exact .nil
  | cons x xs ih =>
    obtain ⟨pre, post, hm, rfl, -⟩ := mem_orders_cons.1 h
    exact List.perm_middle.trans ((ih hm).cons x)

/-- The text's own order is one of them. -/
theorem text_mem_orders (xs : List AsmItem) : xs ∈ orders xs := by
  induction xs with
  | nil => simp [orders]
  | cons x xs ih => exact mem_orders_cons.2 ⟨[], xs, ih, rfl, by simp⟩

/-- Items of which any two are ordered keep their order: one requester's requests, the plain directives. -/
theorem orders_filter (p : AsmItem → Bool) (hp : ∀ x y, p x = true → p y = true → mustPrecede x y = true)
    {xs zs : List AsmItem} (h : zs ∈ orders xs) : zs.filter p = xs.filter p := by
  induction xs generalizing zs with
  | nil => simp [orders] at h; subst h; rfl
  | cons x xs ih =>
    obtain ⟨pre, post, hm, rfl, hpre⟩ := mem_orders_cons.1 h
    have hx := ih hm
    rw [List.filter_append] at hx
    rw [List.filter_append, List.filter_cons, List.filter_cons]
    cases hpx : p x with
    | false => simpa using hx
    | true =>
      have hnil : pre.filter p = [] := by
        refine List.filter_eq_nil_iff.2 fun y hy hpy => ?_
        cases (hp x y hpx hpy).symm.trans (hpre y hy)
      rw [hnil] at hx
      simpa [hnil] using hx

/-- Requests of one requester are performed in the order it sent them (rule R39). -/
theorem orders_keep_requester (r : Nat) {xs zs : List AsmItem} (h : zs ∈ orders xs) :
    zs.filter (fun i => match i with | .request a _ => a == r | .directive _ _ => false)
      = xs.filter (fun i => match i with | .request a _ => a == r | .directive _ _ => false) := by
  refine orders_filter _ (fun x y hx hy => ?_) h
  cases x <;> cases y <;> simp_all [mustPrecede]

end Sys2Proof.Machine
end

