-- ==== Sys2Proof/Laws/PerInstr.lean ====
section
/-! SUPPORT. What the encoding of each operation holds beside its operands: its code, a zero reserved field, and so
the `mask` and `match` of its row (rules R45, R47). -/

namespace Sys2Proof.Laws.EncodeFields

/-- The encoded word holds the operation's code and a zero reserved field. -/
def Statement (i : Instr) : Prop := opField (encode i) = i.op ∧ rsvField (encode i) = 0#29

theorem apply (x multiplier shift : Word) : Statement (.apply x multiplier shift) :=
  ⟨opField_pack .., rsvField_pack ..⟩

theorem scaleSingle (x multiplier shift : Word) : Statement (.scaleSingle x multiplier shift) :=
  ⟨opField_pack .., rsvField_pack ..⟩

theorem scaleRte (x multiplier shift : Word) : Statement (.scaleRte x multiplier shift) :=
  ⟨opField_pack .., rsvField_pack ..⟩

theorem scaleRteIntent (x multiplier shift : Word) : Statement (.scaleRteIntent x multiplier shift) :=
  ⟨opField_pack .., rsvField_pack ..⟩

theorem resolvePolicy : Statement .resolvePolicy := ⟨opField_pack .., rsvField_pack ..⟩

theorem resolveDiag : Statement .resolveDiag := ⟨opField_pack .., rsvField_pack ..⟩

end Sys2Proof.Laws.EncodeFields
end

