-- ==== Sys2Proof/Laws/Step.lean ====
section
/-! SUPPORT. Everything one step can do (rules R33, R39, R50, R111, R125). -/

namespace Sys2Proof.Machine

theorem exec_latched {s : State} {e : Exception} (h : s.fault = .cause e) (i : Instr) :
    exec i s = .fault (.latched e) := by
  cases i <;> simp only [exec, execApply, execScaleSingle, execScaleRte, execScaleRteIntent, execResolvePolicy,
    execResolveDiag, unlessFaulted_latched h]

/-! ### Each operation in an unfaulted block, through `exec` -/

theorem exec_scaleSingle {s : State} (h : s.fault = .none) (x m sh : Word) :
    exec (.scaleSingle x m sh) s = .next (conclude (scaleSingle Config.rangeCheck x m sh) s) :=
  execScaleSingle_good h x m sh

theorem exec_scaleRte {s : State} (h : s.fault = .none) (x m sh : Word) :
    exec (.scaleRte x m sh) s = .next (conclude (scaleRteLiteral x m sh) s) :=
  execScaleRte_good h x m sh

theorem exec_scaleRteIntent {s : State} (h : s.fault = .none) (x m sh : Word) :
    exec (.scaleRteIntent x m sh) s = .next (conclude (scaleRteIntent Config.rangeCheck x m sh) s) :=
  execScaleRteIntent_good h x m sh

theorem exec_resolvePolicy {s : State} (h : s.fault = .none) :
    exec .resolvePolicy s = .next (respondOk (policyAnswer (resolvePolicy s).1) (resolvePolicy s).2) :=
  execResolvePolicy_good h

theorem exec_resolveDiag {s : State} (h : s.fault = .none) :
    exec .resolveDiag s = .next (respondOk (diagAnswer (resolveDiag s).1) (resolveDiag s).2) :=
  execResolveDiag_good h

theorem exec_apply {s : State} (h : s.fault = .none) (x m sh : Word) :
    exec (.apply x m sh) s =
      .next (finishApply (resolveDiag (resolvePolicy s).2).1 (scaleUnder (resolvePolicy s).1 x m sh)
        (emitIf (resolveDiag (resolvePolicy s).2).1 (.before x m sh) (resolveDiag (resolvePolicy s).2).2)) :=
  execApply_good h x m sh

/-- An operation that answers a next state ran in an unfaulted block (rule R111). -/
theorem exec_next_good {i : Instr} {s t : State} (h : exec i s = .next t) : s.fault = .none := by
  cases hf : s.fault with
  | none => rfl
  | cause e => rw [exec_latched hf] at h; cases h

/-! ### A step -/

theorem step_request {s : State} {r : Nat} {w : ReqWord} {rest : List Input} {i : Instr}
    (hs : s.inputs = .request r w :: rest) (hw : decode w = .ok i) :
    step s = exec i { s with inputs := rest, client := r } := by
  unfold step fetch; rw [hs]
  simp only [hw]; rfl

theorem step_invalid {s : State} {r : Nat} {w : ReqWord} {rest : List Input} {e : DecodeError}
    (hs : s.inputs = .request r w :: rest) (hw : decode w = .error e) :
    step s = .refused (.reservedEncoding e) := by
  unfold step fetch; rw [hs]
  simp only [hw]

theorem step_setCfg {s : State} {k : CfgKey} {a : CfgAnswer} {rest : List Input}
    (hs : s.inputs = .setCfg k a :: rest) : step s = .next ((s.setInputs rest).setCfg k a) := by
  unfold step fetch; rw [hs]

theorem step_reset {s : State} {rest : List Input} (hs : s.inputs = .reset :: rest) :
    step s = .next (hostReset (s.setInputs rest)) := by
  unfold step fetch; rw [hs]

theorem step_idle {s : State} (hs : s.inputs = []) : step s = unlessFaulted s .next := by
  unfold step fetch; rw [hs]

/-- A stopped block with nothing pending has no step (rules R111, R135). -/
theorem step_stopped {s : State} {e : Exception} (hf : s.fault = .cause e) (hs : s.inputs = []) :
    step s = .fault (.latched e) := by
  rw [step_idle hs, unlessFaulted_latched hf]

/-- The inversion lemma of a step: if it answers `t`, one of four things happened. -/
theorem step_cases {s t : State} (h : step s = .next t) :
    (s.inputs = [] ∧ s.fault = .none ∧ t = s) ∨
    (∃ k a rest, s.inputs = .setCfg k a :: rest ∧ t = (s.setInputs rest).setCfg k a) ∨
    (∃ rest, s.inputs = .reset :: rest ∧ t = hostReset (s.setInputs rest)) ∨
    (∃ r w rest i, s.inputs = .request r w :: rest ∧ decode w = .ok i ∧ s.fault = .none ∧
      exec i { s with inputs := rest, client := r } = .next t) := by
  rcases hs : s.inputs with _ | ⟨_ | _ | _, rest⟩
  · rw [step_idle hs] at h
    obtain ⟨hf, h⟩ := unlessFaulted_next h
    cases h; exact .inl ⟨rfl, hf, rfl⟩
  · rename_i r w
    cases hw : decode w with
    | error e => rw [step_invalid hs hw] at h; cases h
    | ok i =>
      rw [step_request hs hw] at h
      exact .inr (.inr (.inr ⟨r, w, rest, i, rfl, hw, exec_next_good (s := { s with inputs := rest, client := r }) h, h⟩))
  · rename_i k a
    rw [step_setCfg hs] at h; cases h; exact .inr (.inl ⟨k, a, rest, rfl, rfl⟩)
  · rw [step_reset hs] at h; cases h; exact .inr (.inr (.inl ⟨rest, rfl, rfl⟩))

end Sys2Proof.Machine
end

