-- ==== Sys2Proof/Tests/Slice0.lean ====
section
/-! SUPPORT. The model's own tests: expected values are the spec's own examples (95_test_vectors, worked examples of
the rules), never the model's answers; and for every statement with hypotheses a witness that meets them. -/

namespace Sys2Proof.Tests

open Sys2Proof.Machine

/-- A signed literal as a word. -/
def sw (v : Int) : Word := BitVec.ofInt 32 v

/-- An unfaulted state with resolved registers. -/
def st (p : Policy) (on : Bool) : State := { State.reset with policy := .resolved p, diag := .resolved on }

/-- A fresh state whose configuration source answers `a0` and `a1`. -/
def fresh (a0 a1 : CfgAnswer) : State := { State.reset with cfgMode := a0, cfgDiag := a1 }

/-- A faulted state. -/
def dead (e : Exception) : State := { State.reset with fault := .cause e }

/-- The next state, if there is one. -/
def after? : Result → Option State
  | .next t => some t
  | .fault _ => none
  | .refused _ => none

/-- What the requester sees: the last response. -/
def answer? (r : Result) : Option Response := (after? r).bind fun t => (t.responses.getLast?).map Prod.snd

/-! ### Well-formedness: each check refuses an ill-formed term (rules R53, R54, R116) -/

theorem test_wf_operand_above : (AsmOperand.dec 2147483648).wf = false := by decide
theorem test_wf_operand_below : (AsmOperand.dec (-2147483649)).wf = false := by decide
theorem test_wf_pattern_wide : (AsmOperand.hex 0x100000000).wf = false := by decide
theorem test_wf_shift_expression : (AsmOperand.oneShl 31).wf = false := by decide
theorem test_wf_line : (AsmLine.apply (.dec 1) (.oneShl 31) (.dec 0)).wf = false := by decide
theorem test_wf_requester : (AsmItem.request 2 .resolvePolicy).wf 2 = false := by decide
theorem test_wf_text : (AsmItem.directive false (.cfg .roundingMode (some ['é']))).wf 1 = false := by decide
theorem test_wf_accepts : (AsmItem.request 1 (.scaleSingle .int32Min .int32Max (.hex 0xffffffff))).wf 2 = true := by
  decide

/-! ### Decoding: a word written out from rule R45 and R47 for every operation (95 section 7.4 and its rows) -/

theorem test_decode_apply :
    decodeTableWord 128 0x00000000_00000000_40000000_00000001 = some (.apply 1#32 0x40000000#32 0#32) := by decide
theorem test_decode_scaleSingle :
    decodeTableWord 128 0x00000001_fffffffd_5a82799a_ffffcfc7
      = some (.scaleSingle (sw (-12345)) (sw 1518500250) (sw (-3))) := by decide
theorem test_decode_scaleRte :
    decodeTableWord 128 0x00000002_00000003_00003039_00000064 = some (.scaleRte (sw 100) (sw 12345) (sw 3)) := by
  decide
theorem test_decode_scaleRteIntent :
    decodeTableWord 128 0x00000003_ffffffe1_7fffffff_80000000
      = some (.scaleRteIntent (sw (-2147483648)) (sw 2147483647) (sw (-31))) := by decide
theorem test_decode_resolvePolicy :
    decodeTableWord 128 0x00000004_12345678_9abcdef0_0badcafe = some .resolvePolicy := by decide
theorem test_decode_resolveDiag :
    decodeTableWord 128 0x00000005_ffffffff_ffffffff_ffffffff = some .resolveDiag := by decide
theorem test_decode_op6 : decode 0x00000006_00000000_00000000_00000000#128 = .error (.reservedOp 6#3) := by decide
theorem test_decode_op7 : decode 0x00000007_00000000_00000000_00000000#128 = .error (.reservedOp 7#3) := by decide
theorem test_decode_bit99 : decode 0x00000008_00000000_40000000_00000001#128 = .error .reservedBits := by decide
theorem test_decode_bit127 : decode 0x80000001_00000000_40000000_00000001#128 = .error .reservedBits := by decide
theorem test_decode_partial : decodeBytes (List.replicate 15 0#8) = .error (.partialRequest 15) := by decide

/-- 95 section 7.4, byte serialisation of row 1. -/
theorem test_bytes : encodeBytes (.apply 1#32 0x40000000#32 0#32)
    = [1#8, 0#8, 0#8, 0#8, 0#8, 0#8, 0#8, 0x40#8, 0#8, 0#8, 0#8, 0#8, 0#8, 0#8, 0#8, 0#8] := by decide

/-! ### The scalers (95 sections 3, 5, 6) and the primitive (95 section 4) -/

/-- Row 16. -/
theorem test_scaleSingle_negative :
    answer? (exec (.scaleSingle (sw (-12345)) (sw 1518500250) (sw (-3))) State.reset) = some (.ok (sw (-1091))) := by
  decide
/-- Row 38: the result is -2147483712. -/
theorem test_scaleSingle_wide :
    (after? (exec (.scaleSingle (sw (-33554433)) (sw 1073741824) (sw 7)) State.reset)).map (fun t => (t.fault, t.responses))
      = some (.cause .rangeAssertionFailure, [(0, .exception .rangeAssertionFailure)]) := by decide
/-- Row 16 of section 5: -37.5 goes to -38. -/
theorem test_scaleRte_tie : answer? (exec (.scaleRte (sw (-100)) 0#32 3#32) State.reset) = some (.ok (sw (-38))) := by
  decide
/-- Row 29: the multiplier is checked although it is unused. -/
theorem test_scaleRte_multiplier :
    answer? (exec (.scaleRte 1#32 (sw (-1)) 3#32) State.reset) = some (.exception .preconditionViolation) := by decide
/-- Row 3 of section 6: 2.5 goes to 2. -/
theorem test_scaleRteIntent_tie :
    answer? (exec (.scaleRteIntent 5#32 1073741824#32 0#32) State.reset) = some (.ok 2#32) := by decide
/-- Row 15: the largest amount, 62. -/
theorem test_scaleRteIntent_amount62 :
    answer? (exec (.scaleRteIntent (sw (-2147483648)) (sw 2147483647) (sw (-31))) State.reset) = some (.ok (sw (-1))) := by
  decide
/-- Rows at amount 4: ties of both signs and neighbours. -/
theorem test_roundToEven_amount4 :
    [8, 24, 40, 56, -8, -24, -40, -56, 7, 9, 23, 25, -9, 0].map (fun v => (roundToEven v 4).toOption)
      = [0, 2, 2, 4, 0, -2, -2, -4, 0, 1, 1, 2, -1, 0].map some := by decide
theorem test_roundToEven_amount0 : roundToEven 5 0 = .error .preconditionViolation := by rfl
/-- Section 4, outside the domain: 3 * 2^61 at amount 62. -/
theorem test_roundToEven_domain : roundToEvenDefined 6917529027641081856 62 = false := by decide
/-- Row 26 in 64-bit words: the largest biased sum. -/
theorem test_datapath_extreme :
    singleResultDatapath (sw 2147483647) (sw 2147483647) (sw (-31)) = 1#64 := by decide

/-! ### The policy selector (95 section 7.1) -/

/-- Row 3. -/
theorem test_resolvePolicy_even :
    (after? (exec .resolvePolicy (fresh (.present [0x45#8, 0x56#8]) .absent))).map
        (fun t => (t.policy, t.events, t.responses))
      = some (.resolved .roundToEven, [], [(0, .ok 2#32)]) := by decide
/-- Row 7: "EV " is not "EV". -/
theorem test_resolvePolicy_other :
    (after? (exec .resolvePolicy (fresh (.present [0x45#8, 0x56#8, 0x20#8]) .absent))).map
        (fun t => (t.policy, t.events, t.responses))
      = some (.resolved .singleRounding, [.warning], [(0, .ok 1#32)]) := by decide
/-- Row 17: a single zero byte enables. -/
theorem test_resolveDiag_zero_byte :
    (after? (exec .resolveDiag (fresh .absent (.present [0#8])))).map (fun t => (t.diag, t.policy, t.responses))
      = some (.resolved true, .unresolved, [(0, .ok 1#32)]) := by decide
/-- Row 12. -/
theorem test_resolveDiag_absent :
    (after? (exec .resolveDiag (fresh .absent .absent))).map (fun t => (t.diag, t.responses))
      = some (.resolved false, [(0, .ok 0#32)]) := by decide

/-! ### The dispatcher (95 section 7.2) -/

/-- Row 4. -/
theorem test_apply_even_traced :
    (after? (exec (.apply 5#32 1073741824#32 1#32) (st .roundToEven true))).map (fun t => (t.events, t.responses))
      = some ([.before 5#32 1073741824#32 1#32, .after 2#32], [(0, .ok 2#32)]) := by decide
/-- Row 12: key 0 = "bogus", key 1 = "y". -/
theorem test_apply_first_use_raises :
    (after? (exec (.apply 5#32 (sw (-1)) 0#32)
        (fresh (.present (asciiBytes "bogus".toList)) (.present (asciiBytes "y".toList))))).map
        (fun t => (t.policy.code, t.diag.code, t.fault.code, t.events))
      = some (1#2, 2#2, 1#2, [.warning, .before 5#32 (sw (-1)) 0#32]) := by decide

/-- Rows 10 and 11: a faulted block gives no response. -/
theorem test_faulted : after? (exec .resolvePolicy (dead .rangeAssertionFailure)) = none := by decide

/-! ### Words (rule R51 and 95 section 7.2; rule R48 and 95 section 3) -/

theorem test_event_words :
    (Event.before 5#32 1073741824#32 0#32).word = 0x0_00000000_40000000_00000005#98 ∧
    (Event.after 3#32).word = 0x1_00000000_00000000_00000003#98 ∧
    Event.warning.word = 0x2_00000000_00000000_00000000#98 := by decide
theorem test_response_word : (Response.ok (sw (-1091))).word 0 = 0x00000000_fffffbbd#64 := by decide
theorem test_answer_word : readAnswer (answerWord (.present [0x45#8, 0x56#8])) = some (.present [0x45#8, 0x56#8]) := by
  decide

/-! ### Steps: a request taken, a reset in a stopped block, a request word placed after reset -/

theorem test_step_request :
    (after? (step { State.reset with inputs := [.request 3 0x00000001_00000000_40000000_00000001#128] })).map
        (fun t => (t.inputs, t.responses)) = some ([], [(3, .ok 1#32)]) := by decide
/-- P4 line 4. -/
theorem test_step_reset :
    (after? (step { dead .preconditionViolation with diag := .resolved false, inputs := [.reset] })).map
        (fun t => (t.policy.code, t.diag.code, t.fault.code)) = some (0#2, 0#2, 0#2) := by decide
theorem test_withFetchWord :
    answer? (step (State.reset.withFetchWord 128 0x00000000_00000000_40000000_00000001)) = some (.ok 1#32) := by decide

/-- A stopped block with nothing pending has no step (rules R111, R135). -/
theorem test_step_stopped : after? (step (dead .rangeAssertionFailure)) = none := by decide

/-! ### The assembler (rules R53, R54; programs P5 and P6 of 95 section 8) -/

/-- The example of rule R53, with a label and a comment. -/
theorem test_assemble_line :
    assembleText 2 "r1: APPLY 1, 1<<30, 0 ; first".toList
      = some [[.request 1 0x00000000_00000000_40000000_00000001#128]] := by decide
/-- Directives of rule R54 and a program line of P1: one requester, one order. -/
theorem test_assemble_directives :
    assembleText 1 ".reset\n .cfg 0, \"EV\"\n .cfg 1, absent\n.param RANGE_CHECK, unchecked\n5: RESOLVE_POLICY".toList
      = some [[.reset, .setCfg .roundingMode (.present [0x45#8, 0x56#8]), .setCfg .diagnosticsEnable .absent,
          .request 0 0x00000004_00000000_00000000_00000000#128]] := by decide
theorem test_assemble_out_of_range : assembleText 1 "SCALE_RTE 1, 1<<31, 0".toList = none := by decide
/-- `host:` stands before a directive and `r<n>:` before a mnemonic, and no line has two senders. -/
theorem test_assemble_labels :
    ["host: RESOLVE_POLICY", "r0: .reset", "r0: r1: RESOLVE_DIAG", "r0:", "x: RESOLVE_DIAG"].map
        (fun l => assembleText 2 l.toList) = List.replicate 5 none := by decide

/-- What a run of these inputs leaves: the responses as a requester and a response word, and the three registers, each
number read from its bits; nothing if the run stops. The result bits of an exception are left out. -/
def outcome (is : List Input) : List (Nat × Option Int) × List Nat :=
  match after? (Host.Core.run core is.length { State.reset with inputs := is }) with
  | some t =>
    (t.responses.map fun p => (p.1, match p.2 with | .ok v => some v.toInt | .exception _ => none),
      [t.policy.code.toNat, t.diag.code.toNat, t.fault.code.toNat])
  | none => ([], [])

/-- P5: run a, the host's change after the first `APPLY`, and run b, before it, each with either requester first. -/
theorem test_program_P5 :
    ((assembleText 2
        (".reset\n.cfg 0, \"EV\"\n.cfg 1, absent\nr0: APPLY 3, 1<<30, 1\nr1: APPLY 3, 1<<30, 1\n" ++
          "host: .cfg 0, absent").toList).getD []).map outcome
      = [([(0, some 2), (1, some 2)], [2, 1, 0]), ([(1, some 2), (0, some 2)], [2, 1, 0]),
         ([(1, some 2), (0, some 2)], [2, 1, 0]), ([(0, some 2), (1, some 2)], [2, 1, 0]),
         ([(0, some 3), (1, some 3)], [1, 1, 0]), ([(1, some 3), (0, some 3)], [1, 1, 0])] := by decide

/-- P6: both orders are runs; in run b the block stops before r0 is answered. -/
theorem test_program_P6 :
    ((assembleText 2
        (".reset\n.cfg 0, \"EV\"\n.cfg 1, absent\nr0: APPLY 4, 1<<30, 2\nr1: APPLY 7, 1<<30, 0").toList).getD []).map
        (fun is => [outcome is, outcome (is.take 4)])
      = [[([(0, some 2), (1, none)], [2, 1, 1]), ([(0, some 2)], [2, 1, 0])],
         [([], []), ([(1, none)], [2, 1, 1])]] := by decide

end Sys2Proof.Tests
end

