-- ==== Sys2Proof/Tests/Witnesses.lean ====
section
/-! SUPPORT. For every statement with hypotheses, a concrete state and operands that meet all of them together, one
conjunct for each clause, at the ends of the ranges. Nothing here is a claim. -/

namespace Sys2Proof.Tests

open Sys2Proof.Machine

/-- A request for requester 3 at the front of the inputs of `s`. -/
def asking (w : ReqWord) (s : State) : State := { s with inputs := [.request 3 w, .reset] }

/-! ### Encoding and steps -/

theorem witness_ReservedWordsAreRefusedAndOnlyThose :
    ((6#128 <<< 96 : ReqWord).toNat / 2 ^ 96 = 6 ∧
      (asking (6#128 <<< 96) State.reset).inputs = [.request 3 (6#128 <<< 96), .reset]) ∧
    (5#128 <<< 96 : ReqWord).toNat / 2 ^ 96 < 6 := by decide

theorem witness_DecodeReadsTheFields :
    ∀ k : Fin 6, (pack (BitVec.ofNat 3 k) 7#32 8#32 9#32).toNat / 2 ^ 96 = k ∧
      (pack (BitVec.ofNat 3 k) 7#32 8#32 9#32).toNat % 2 ^ 96
        = (9#32 : Word).toNat * 2 ^ 64 + (8#32 : Word).toNat * 2 ^ 32 + (7#32 : Word).toNat := by decide

theorem witness_ByteIHoldsItsEightBits : (15 : Nat) < 16 ∧ (7 : Nat) < 8 := by decide

theorem witness_AssembledLineKeepsItsIntegers :
    (∀ o ∈ [AsmOperand.int32Min, .int32Max, .oneShl 30],
      -2147483648 ≤ o.value ∧ o.value ≤ 2147483647 ∧ ∀ p, o = .hex p → p < 2 ^ 32) ∧
    (AsmOperand.dec (-2147483649)).value < -2147483648 ∧ 2147483647 < (AsmOperand.oneShl 31).value ∧
    AsmOperand.hex 0x100000000 = .hex 0x100000000 ∧ 2 ^ 32 ≤ 0x100000000 := by
  refine ⟨?_, by decide⟩
  simp only [List.mem_cons, List.not_mem_nil, or_false]
  rintro o (rfl | rfl | rfl) <;> exact ⟨by decide, by decide, fun p h => by cases h⟩

theorem witness_StepRunsTheDecodedRequest :
    (asking 0#128 State.reset).inputs = [.request 3 0#128, .reset] ∧ decode 0#128 = .ok (.apply 0#32 0#32 0#32) := by
  decide

theorem witness_HostChangesOnlyTheSetting :
    ({ State.reset with inputs := [.setCfg .roundingMode .absent] } : State).inputs = [.setCfg .roundingMode .absent] ∧
    ({ State.reset with inputs := [.setCfg .diagnosticsEnable (.present [])] } : State).inputs
      = [.setCfg .diagnosticsEnable (.present [])] ∧
    State.reset.inputs = [] ∧ State.reset.fault = .none := by decide

theorem witness_ResetEventClearsExactlyTheRegisters :
    ({ dead .rangeAssertionFailure with inputs := [.reset] } : State).inputs = [.reset] := by decide

theorem witness_ResetLeavesEveryRegisterZero :
    PolicyReg.unresolved.code = 0#2 ∧ DiagReg.unresolved.code = 0#2 ∧ FaultReg.none.code = 0#2 := by decide

/-! ### The scalers -/

/-- Legal operands of Strategy A and the intent form, at both ends of `shift` (rule R60): the hypotheses of
SingleProductNeverOverflows, ZeroGivesZero, DatapathAgreesWithIntegers and BlockUsesRoundToEvenInsideItsDomain, and the
legality hypotheses of every other statement about Strategy A and the intent form. -/
theorem witness_legal_operands :
    (0 ≤ (0#32 : Word).toInt ∧ -31 ≤ (sw (-31)).toInt ∧ (sw (-31)).toInt ≤ 7 ∧ ((62 : Nat) : Int) = 31 - (sw (-31)).toInt) ∧
    (0 ≤ (sw 2147483647).toInt ∧ -31 ≤ (sw 7).toInt ∧ (sw 7).toInt ≤ 7 ∧ ((24 : Nat) : Int) = 31 - (sw 7).toInt) := by
  decide

/-- Each way to be illegal, at the boundary (rules R60, R74): the precondition clauses of
ScaleSingleFollowsTheSevenSteps, LiteralFormFollowsItsFormula, IntentFormRoundsTheExactProduct and DirectScalersTrap. -/
theorem witness_illegal_operands :
    (sw (-1)).toInt < 0 ∧ (sw (-32)).toInt < -31 ∧ 7 < (sw 8).toInt ∧ (sw 0).toInt < 1 := by decide

/-- A result that fits at its upper end, one that does not, and one below (95 section 3 rows 33, 36, 38). -/
theorem witness_ScaleSingleFollowsTheSevenSteps :
    (sw 2147483647).toInt = ((sw 16777216).toInt * (sw 2147483647).toInt + 2 ^ (24 - 1)) / 2 ^ 24 ∧
    2147483647 < ((sw 33554432).toInt * (sw 1073741824).toInt + 2 ^ (24 - 1)) / 2 ^ 24 ∧
    ((sw (-33554433)).toInt * (sw 1073741824).toInt + 2 ^ (24 - 1)) / 2 ^ 24 < -2147483648 := by decide

/-- Operand 1, its negation, and the tie they make at factor one half. -/
theorem witness_SingleRoundingIsRoundHalfUp :
    (sw (-1)).toInt = -(sw 1).toInt ∧ (sw 1).toInt * (sw 1073741824).toInt % 2 ^ 31 = 2 ^ (31 - 1) := by decide

theorem witness_RoundToEvenFollowsItsFormula :
    roundToEvenDefined (-24) 4 = true ∧ roundToEvenDefined 4611686018427387904 63 = true ∧ (0 : Nat) = 0 := by decide

theorem witness_RoundToEvenIsNearestTiesToEven : NearestEven 24 4 2 ∧ (1 : Nat) ≤ 4 := by
  unfold NearestEven; decide

/-- Legal amounts of the literal form at both ends (rule R74): the hypotheses of LiteralFormFollowsItsFormula,
ScaleRteCompletes and the literal clauses of BlockUsesRoundToEvenInsideItsDomain and DatapathAgreesWithIntegers. -/
theorem witness_literal_operands :
    (0 ≤ (0#32 : Word).toInt ∧ ((1 : Nat) : Int) = (sw 1).toInt ∧ (1 : Nat) ≤ 1 ∧ (1 : Nat) ≤ 7) ∧
    (((7 : Nat) : Int) = (sw 7).toInt ∧ (1 : Nat) ≤ 7 ∧ (7 : Nat) ≤ 7) := by decide

theorem witness_LiteralFormAlwaysFits :
    scaleRteLiteral (sw 2147483647) 0#32 (sw 1) = .ok (sw 1073741824) := by decide

/-- A nearest value that fits, one above and one below (95 section 6 rows 3, 18; section 3 row 38). -/
theorem witness_IntentFormRoundsTheExactProduct :
    NearestEven ((sw 5).toInt * (sw 1073741824).toInt) 31 2 ∧
    NearestEven ((sw 33554432).toInt * (sw 1073741824).toInt) 24 2147483648 ∧
    NearestEven ((sw (-33554433)).toInt * (sw 1073741824).toInt) 24 (-2147483712) := by
  unfold NearestEven; decide

theorem witness_RangeFailureExactlyWhenTooWide : (sw 0).toInt ≤ 0 ∧ ((31 : Nat) : Int) = 31 - (sw 0).toInt := by decide

theorem witness_ScaleSingleIsMonotone :
    (sw (-5)).toInt ≤ (sw 5).toInt ∧
    scaleSingle .checked (sw (-5)) (sw 1073741824) (sw 0) = .ok (sw (-2)) ∧
    scaleSingle .checked (sw 5) (sw 1073741824) (sw 0) = .ok (sw 3) := by decide

theorem witness_IntentDiffersFromSingleOnlyAtEvenTies :
    scaleSingle .checked (sw 5) (sw 1073741824) (sw 0) = .ok (sw 3) ∧
    scaleRteIntent .checked (sw 5) (sw 1073741824) (sw 0) = .ok (sw 2) ∧ ((31 : Nat) : Int) = 31 - (sw 0).toInt := by
  decide

theorem witness_RoundToEvenFormsAreOddAndMonotone :
    (sw 3).toInt = -(sw (-3)).toInt ∧ (sw (-3)).toInt ≤ (sw 3).toInt ∧
    scaleRteLiteral (sw (-3)) 0#32 (sw 1) = .ok (sw (-2)) ∧ scaleRteLiteral (sw 3) 0#32 (sw 1) = .ok (sw 2) ∧
    scaleRteIntent .checked (sw (-3)) (sw 1073741824) (sw 0) = .ok (sw (-2)) ∧
    scaleRteIntent .checked (sw 3) (sw 1073741824) (sw 0) = .ok (sw 2) := by decide

/-! ### The operations -/

theorem witness_ScaleSingleCompletes :
    State.reset.fault = .none ∧ (sw 1).toInt = ((sw 1).toInt * (sw 1073741824).toInt + 2 ^ (31 - 1)) / 2 ^ 31 ∧
    ((31 : Nat) : Int) = 31 - (sw 0).toInt := by decide

theorem witness_ScaleRteIntentCompletes :
    (st .roundToEven true).fault = .none ∧ NearestEven ((sw 5).toInt * (sw 1073741824).toInt) 31 (sw 2).toInt := by
  unfold NearestEven; decide

theorem witness_DirectScalersTrap :
    State.reset.fault = .none ∧ (2147483648 : Int) = ((sw 33554432).toInt * (sw 1073741824).toInt + 2 ^ (24 - 1)) / 2 ^ 24 ∧
    NearestEven ((sw 33554432).toInt * (sw 1073741824).toInt) 24 2147483648 ∧ (2147483647 : Int) < 2147483648 := by
  unfold NearestEven; decide

theorem witness_ModeClassification : ([0x45#8] : List Byte) ≠ [] ∧ ([0x45#8] : List Byte) ≠ [0x45#8, 0x56#8] := by
  decide

theorem witness_ResolvingStepsAreMemoized :
    (st .roundToEven false).policy = .resolved .roundToEven ∧ State.reset.policy = .unresolved ∧
    (st .roundToEven false).diag = .resolved false ∧ State.reset.diag = .unresolved := by decide

/-- A policy to be resolved and one resolved, under which the two forms of `APPLY` run (rules R86, R95), and unfaulted
states for ResolvePolicyCompletes and ResolveDiagCompletes. -/
theorem witness_ApplyCompletes :
    (fresh (.present [0x45#8, 0x56#8]) .absent).fault = .none ∧
    policyInForce (fresh (.present [0x45#8, 0x56#8]) .absent) = .roundToEven ∧
    policyInForce State.reset = .singleRounding ∧ policyInForce (st .roundToEven true) = .roundToEven ∧
    (sw 1).toInt = ((sw 1).toInt * (sw 1073741824).toInt + 2 ^ (31 - 1)) / 2 ^ 31 := by decide

/-- Under each policy an operand set that raises, and the range failure. -/
theorem witness_ApplyTraps :
    (policyInForce (st .roundToEven true) = .roundToEven ∧
      scaleRteLiteral (sw 100) (sw 1073741824) (sw 0) = .error .preconditionViolation) ∧
    (policyInForce (st .singleRounding true) = .singleRounding ∧
      scaleSingle Config.rangeCheck (sw 5) (sw (-1)) (sw 0) = .error .preconditionViolation) ∧
    scaleSingle Config.rangeCheck (sw 33554432) (sw 1073741824) (sw 7) = .error .rangeAssertionFailure :=
  ⟨by decide, ⟨by decide, rfl⟩, rfl⟩

theorem witness_FaultedBlockRunsNothing :
    ((dead .preconditionViolation).fault = .cause .preconditionViolation ∧ (dead .preconditionViolation).inputs = []) ∧
    (asking 0#128 (dead .rangeAssertionFailure)).fault = .cause .rangeAssertionFailure ∧
    (asking 0#128 (dead .rangeAssertionFailure)).inputs = [.request 3 0#128, .reset] ∧
    decode 0#128 = .ok (.apply 0#32 0#32 0#32) := by decide

/-- An unfaulted state under each policy in force: PreconditionViolationExactlyWhen, RangeAssertionExactlyWhen. -/
theorem witness_ExactlyWhen :
    ((st .singleRounding false).fault = .none ∧ policyInForce (st .singleRounding false) = .singleRounding) ∧
    ((st .roundToEven false).fault = .none ∧ policyInForce (st .roundToEven false) = .roundToEven) ∧
    (sw 0).toInt ≤ 0 := by decide

/-- An operation that completes, with and without a warning. -/
theorem witness_WarningExactlyWhenUnrecognised :
    (∃ t, exec .resolvePolicy (fresh (.present [0#8]) .absent) = .next t ∧
      warningCount t ≠ warningCount (fresh (.present [0#8]) .absent)) ∧
    ∃ t, exec (.apply 0#32 0#32 0#32) State.reset = .next t :=
  ⟨⟨_, rfl, by decide⟩, ⟨_, rfl⟩⟩

theorem witness_ResolutionsAreIndependent :
    (∃ t, exec .resolvePolicy State.reset = .next t) ∧ (∃ t, exec .resolveDiag State.reset = .next t) ∧
    (∃ t, exec (.scaleSingle 0#32 0#32 0#32) State.reset = .next t) ∧
    (∃ t, exec (.scaleRte 0#32 0#32 1#32) State.reset = .next t) ∧
    (∃ t, exec (.scaleRteIntent 0#32 0#32 0#32) State.reset = .next t) ∧
    State.reset.policy = .unresolved ∧ State.reset.diag = .unresolved ∧
    ∃ t, exec (.apply 0#32 0#32 0#32) State.reset = .next t :=
  ⟨⟨_, rfl⟩, ⟨_, rfl⟩, ⟨_, rfl⟩, ⟨_, rfl⟩, ⟨_, rfl⟩, rfl, rfl, ⟨_, rfl⟩⟩

theorem witness_LaterConfigurationIsUnseen :
    (st .singleRounding true).policy = .resolved .singleRounding ∧ (st .singleRounding true).diag = .resolved true ∧
    ∃ t, exec (.apply 0#32 0#32 0#32) (st .singleRounding true) = .next t :=
  ⟨rfl, rfl, ⟨_, rfl⟩⟩

theorem witness_DiagnosticsNeverAlterResults :
    Instr.apply 0#32 0#32 0#32 ≠ .resolveDiag ∧
    ∃ t, exec (.apply 0#32 0#32 0#32) (st .singleRounding true) = .next t :=
  ⟨by decide, ⟨_, rfl⟩⟩

theorem witness_ApplyAnswersAsTheSelectedScaler :
    ((st .singleRounding true).fault = .none ∧ (st .singleRounding true).policy = .resolved .singleRounding) ∧
    ((st .roundToEven true).fault = .none ∧ (st .roundToEven true).policy = .resolved .roundToEven) := by decide

theorem witness_RoundToEvenPolicyChangesLegality :
    (st .roundToEven true).fault = .none ∧ (st .roundToEven true).policy = .resolved .roundToEven ∧
    0 ≤ (0#32 : Word).toInt ∧ 0 ≤ (sw 2147483647).toInt ∧ (sw 0).toInt ≤ 0 := by decide

/-- Each operation's frame is about a next state that exists, first use and later use: DirectScalersFrame,
ResolvingOperationsFrame, ApplyFrame. -/
theorem witness_frames :
    (∃ t, exec (.scaleSingle 0#32 0#32 0#32) State.reset = .next t) ∧
    (∃ t, exec .resolvePolicy (fresh (.present [0#8]) .absent) = .next t) ∧
    (st .singleRounding false).policy ≠ .unresolved ∧ (st .singleRounding false).diag ≠ .unresolved ∧
    (∃ t, exec .resolveDiag (st .singleRounding false) = .next t) ∧
    (∃ t, exec (.apply 1#32 1#32 0#32) (st .singleRounding false) = .next t ∧ t.diag = .resolved false) ∧
    (∃ t, exec (.apply 1#32 1#32 0#32) (st .singleRounding true) = .next t ∧ t.diag = .resolved true) ∧
    ∃ t, exec (.apply 1#32 1#32 0#32) State.reset = .next t :=
  ⟨⟨_, rfl⟩, ⟨_, rfl⟩, by decide, by decide, ⟨_, rfl⟩, ⟨_, rfl, rfl⟩, ⟨_, rfl, rfl⟩, ⟨_, rfl⟩⟩

/-! ### The machine -/

/-- A state with the invariant that steps: reset, with a request of requester 0 placed. -/
theorem witness_EveryStepKeepsTheInvariant :
    Inv (State.reset.withFetchWord 128 0) ∧ ∃ t, step (State.reset.withFetchWord 128 0) = .next t := by
  refine ⟨⟨?_, ?_, rfl, rfl, ?_, ?_, ?_, Nat.succ_pos _⟩, ⟨_, rfl⟩⟩
  · intro p h; cases h
  · intro on h; cases h
  · intro e h; cases h
  · intro i hi r hr
    rw [List.mem_singleton.1 hi] at hr
    cases hr
    exact Nat.succ_pos _
  · intro p hp; cases hp

/-- A run of two steps without a reset, from a state with a resolved policy, and one step of a stopped block:
ResolvedRegistersKeepTheirValue, OneLookupPerKeyAndOneWarningPerLifetime, EveryRequestAnsweredOnceInOrder,
SetLatchFreezesTheBlock. -/
theorem witness_runs :
    (NoReset { st .singleRounding true with inputs := [.request 0 0#128] } ∧
      (st .singleRounding true).policy ≠ .unresolved ∧ (st .singleRounding true).diag ≠ .unresolved ∧
      ∃ t, Host.Core.run core 2 { st .singleRounding true with inputs := [.request 0 0#128] } = .next t) ∧
    (NoReset { dead .preconditionViolation with inputs := [.setCfg .roundingMode .absent] } ∧
      (dead .preconditionViolation).fault = .cause .preconditionViolation ∧
      ∃ t, Host.Core.run core 1 { dead .preconditionViolation with inputs := [.setCfg .roundingMode .absent] } = .next t) :=
  ⟨⟨by unfold NoReset; decide, by decide, by decide, ⟨_, rfl⟩⟩, ⟨by unfold NoReset; decide, rfl, ⟨_, rfl⟩⟩⟩

theorem witness_UnfaultedBlockAnswersAtOnce :
    let w : ReqWord := 0x00000004_12345678_9abcdef0_0badcafe#128
    (asking w State.reset).fault = .none ∧ decode w = .ok .resolvePolicy ∧
    (asking w State.reset).inputs = [.request 3 w, .reset] := by decide

/-- Steps that write each register: reset, a resolution, an exception. -/
theorem witness_OnlyNamedTransitionsWriteRegisters :
    (∃ t, step (asking (encode .resolvePolicy) State.reset) = .next t ∧ t.policy ≠ State.reset.policy) ∧
    (∃ t, step (asking (encode .resolveDiag) State.reset) = .next t ∧ t.diag ≠ State.reset.diag) ∧
    (∃ t, step (asking (encode (.scaleRte 0#32 0#32 0#32)) State.reset) = .next t ∧ t.fault ≠ State.reset.fault) ∧
    ∃ t, step { dead .preconditionViolation with inputs := [.reset] } = .next t ∧
      t.fault ≠ (dead .preconditionViolation).fault :=
  ⟨⟨_, rfl, by decide⟩, ⟨_, rfl, by decide⟩, ⟨_, rfl, by decide⟩, ⟨_, rfl, by decide⟩⟩

end Sys2Proof.Tests
end

