-- ==== Sys2Proof/Proofs/ScaleSingle.lean ====
section
/-! PROOFS. Strategy A as a function (rules R60, R61, R65): the facts about its preconditions, its intermediate values
and its range check, and from them the statement about its seven steps. -/

namespace Sys2Proof.Machine

/-! ### Preconditions and total shift (rule R60, step 1) -/

theorem legalForSingle_eq_false_iff (m sh : Word) :
    legalForSingle m sh = false ↔ m.toInt < 0 ∨ sh.toInt < -31 ∨ 7 < sh.toInt := by
  rw [← Bool.not_eq_true, legalForSingle_iff]
  omega

/-- A natural number that equals `31 - shift` is the total shift, whether or not the shift is legal. -/
theorem totalShift_eq_of_cast {sh : Word} {t : Nat} (ht : (t : Int) = 31 - sh.toInt) : totalShift sh = t := by
  unfold totalShift
  omega

/-! ### The intermediate values (steps 3 and 4) -/

theorem roundConstant_eq (sh : Word) : roundConstant sh = 2 ^ (totalShift sh - 1) := oneShl_eq _

theorem biasedProduct_eq (x m sh : Word) :
    biasedProduct x m sh = x.toInt * m.toInt + 2 ^ (totalShift sh - 1) := by
  unfold biasedProduct exactProduct
  rw [roundConstant_eq]

/-- The round constant of a legal shift lies in `[2^23, 2^61]`: the power is monotone in the total shift. -/
theorem roundConstant_bounds {m sh : Word} (h : legalForSingle m sh = true) :
    8388608 ≤ roundConstant sh ∧ roundConstant sh ≤ 2305843009213693952 := by
  obtain ⟨-, hlow, hhigh⟩ := totalShift_eq h
  rw [roundConstant_eq]
  constructor
  · calc (8388608 : Int) = 2 ^ 23 := by norm_num
      _ ≤ 2 ^ (totalShift sh - 1) := pow_le_pow_right₀ one_le_two (by omega)
  · calc (2 : Int) ^ (totalShift sh - 1) ≤ 2 ^ 61 := pow_le_pow_right₀ one_le_two (by omega)
      _ = 2305843009213693952 := by norm_num

/-! ### Range check and narrowing (steps 6 and 7, rule R65) -/

theorem fits32_eq_false_iff (v : Int) : fits32 v = false ↔ v < -2147483648 ∨ 2147483647 < v := by
  rw [← Bool.not_eq_true, fits32_iff]
  omega

/-- The integer of a word passes the range check and narrows to that word. -/
theorem checkedNarrow_toInt (v : Word) (rc : RangeCheck) : checkedNarrow rc v.toInt = .ok v := by
  have hfits : fits32 v.toInt = true := (fits32_iff _).2 (toInt_range v)
  have hnarrow : narrow32 v.toInt = v := BitVec.ofInt_toInt
  rw [checkedNarrow_fits hfits, hnarrow]

/-! ### The seven steps -/

/-- Settles O14: an illegal operand raises before any arithmetic, and on legal operands each step is its formula, the
range check deciding between the narrowed result and the exception. -/
theorem scaleSingleFollowsTheSevenSteps : Obligations.ScaleSingleFollowsTheSevenSteps := by
  unfold Obligations.ScaleSingleFollowsTheSevenSteps
  intro x m sh
  refine ⟨fun hillegal rc => scaleSingle_illegal ((legalForSingle_eq_false_iff m sh).2 hillegal) rc x, ?_⟩
  intro hm hlow hhigh t ht
  have hlegal : legalForSingle m sh = true := (legalForSingle_iff m sh).2 ⟨hm, hlow, hhigh⟩
  obtain ⟨hconstLow, hconstHigh⟩ := roundConstant_bounds hlegal
  obtain rfl : totalShift sh = t := totalShift_eq_of_cast ht
  obtain ⟨-, hshiftLow, hshiftHigh⟩ := totalShift_eq hlegal
  refine ⟨hshiftLow, hshiftHigh, roundConstant_eq sh, hconstLow, hconstHigh, biasedProduct_eq x m sh,
    singleResult64_eq x m sh, ?_, ?_⟩
  · intro v hv
    rw [scaleSingle_legal hlegal, singleResult64_eq, ← hv, checkedNarrow_toInt]
  · intro hwide
    rw [scaleSingle_legal hlegal, singleResult64_eq, checkedNarrow_wide ((fits32_eq_false_iff _).2 hwide)]

end Sys2Proof.Machine
end

