-- ==== Sys2Proof/Proofs/ScaleRoundToEven.lean ====
section
/-! PROOFS. The primitive `round_to_even` and the literal form (rules R71, R72, R74, R75, R76). The primitive's formula
is the floor of the quotient or the integer above it, according to the remainder and the floor's parity; that it is
the nearest integer with ties to even, and that the literal result fits, follow from this. -/

namespace Sys2Proof.Machine

/-! ### The primitive (rule R71) -/

theorem roundToEven_zero (v : Int) : roundToEven v 0 = .error .preconditionViolation := by
  unfold roundToEven
  rw [if_neg (by decide)]

theorem one_le_of_roundToEvenDefined {v : Int} {a : Nat} (h : roundToEvenDefined v a = true) : 1 ≤ a := by
  simp only [roundToEvenDefined, Bool.and_eq_true, decide_eq_true_eq] at h
  obtain ⟨⟨⟨hpos, -⟩, -⟩, -⟩ := h
  exact hpos

/-- Settles O17: the two branches of the primitive; its domain lies inside the branch `1 ≤ amount`. -/
theorem roundToEvenFollowsItsFormula : Obligations.RoundToEvenFollowsItsFormula := by
  unfold Obligations.RoundToEvenFollowsItsFormula
  intro v a
  constructor
  · rintro rfl
    exact roundToEven_zero v
  · intro hdefined
    have hpos : 1 ≤ a := one_le_of_roundToEvenDefined hdefined
    exact ⟨hpos, roundToEven_eq v hpos⟩

/-! ### The formula is the floor or the integer above it -/

theorem two_pow_eq_two_mul_half {a : Nat} (ha : 1 ≤ a) : (2 : Int) ^ a = 2 * 2 ^ (a - 1) := by
  rw [← pow_succ', Nat.sub_add_cancel ha]

/-- Floor division by an even divisor: quotient and remainder, the remainder's range, and the quotient's parity. -/
theorem floor_split (v : Int) {half : Int} (hhalf : 0 < half) :
    v % (2 * half) + 2 * half * (v / (2 * half)) = v ∧ 0 ≤ v % (2 * half) ∧ v % (2 * half) < 2 * half ∧
      (v / (2 * half) % 2 = 0 ∨ v / (2 * half) % 2 = 1) :=
  ⟨Int.emod_add_mul_ediv v _, Int.emod_nonneg v (by omega), Int.emod_lt_of_pos v (by omega), Int.emod_two_eq _⟩

/-- The formula is the floor of `v / 2^a`, plus one exactly when the remainder and the floor's parity together exceed
half the divisor. -/
theorem evenFormula_eq (v : Int) {a : Nat} (ha : 1 ≤ a) :
    (v + v / 2 ^ a % 2 + (2 ^ (a - 1) - 1)) / 2 ^ a =
      v / 2 ^ a + if v % 2 ^ a + v / 2 ^ a % 2 ≤ 2 ^ (a - 1) then 0 else 1 := by
  have hhalf : (0 : Int) < 2 ^ (a - 1) := by positivity
  rw [two_pow_eq_two_mul_half ha]
  generalize (2 : Int) ^ (a - 1) = half at hhalf ⊢
  obtain ⟨hsplit, hremLow, hremHigh, hparity⟩ := floor_split v hhalf
  split
  · exact ((Int.ediv_emod_unique (by omega)
      (r := v % (2 * half) + v / (2 * half) % 2 + (half - 1))).2 ⟨by linarith, by omega, by omega⟩).1
  · exact ((Int.ediv_emod_unique (by omega)
      (r := v % (2 * half) + v / (2 * half) % 2 - half - 1)).2 ⟨by linarith, by omega, by omega⟩).1

/-- The formula is the nearest integer, ties to even (rule R72): the distance to `v` is the remainder below half the
divisor and its complement above; at half the divisor the parity term picks the even one of the two. -/
theorem nearestEven_evenFormula (v : Int) {a : Nat} (ha : 1 ≤ a) :
    NearestEven v a ((v + v / 2 ^ a % 2 + (2 ^ (a - 1) - 1)) / 2 ^ a) := by
  have hhalf : (0 : Int) < 2 ^ (a - 1) := by positivity
  rw [evenFormula_eq v ha]
  unfold NearestEven
  rw [two_pow_eq_two_mul_half ha]
  generalize (2 : Int) ^ (a - 1) = half at hhalf ⊢
  obtain ⟨hsplit, hremLow, hremHigh, hparity⟩ := floor_split v hhalf
  split
  · have hdist : |v - (v / (2 * half) + 0) * (2 * half)| = v % (2 * half) := by
      rw [abs_of_nonneg] <;> linarith
    rw [hdist]
    omega
  · have hdist : |v - (v / (2 * half) + 1) * (2 * half)| = 2 * half - v % (2 * half) := by
      rw [abs_of_nonpos] <;> linarith
    rw [hdist]
    omega

/-! ### The literal form (rules R74, R75, R76) -/

theorem legalForLiteral_eq_false_iff (m sh : Word) :
    legalForLiteral m sh = false ↔ m.toInt < 0 ∨ sh.toInt < 1 ∨ 7 < sh.toInt := by
  rw [← Bool.not_eq_true, legalForLiteral_iff]
  omega

/-- An integer nearest to `x * a / 2^a` lies in `[-2^30, 2^30]` (rule R76): `a ≤ 2^(a-1)`, so the product is at most
`2^31 * 2^(a-1)` in size, and the nearest integer times `2^a` is at most `2^(a-1)` away from it. -/
theorem nearestEven_literal_bounds (x : Word) {a : Nat} (ha : 1 ≤ a) {r : Int}
    (hr : NearestEven (x.toInt * a) a r) : -1073741824 ≤ r ∧ r ≤ 1073741824 := by
  obtain ⟨hdist, -⟩ := hr
  have hhalf : (0 : Int) < 2 ^ (a - 1) := by positivity
  have hamount : (a : Int) ≤ 2 ^ (a - 1) := by exact_mod_cast Nat.le_of_pred_lt Nat.lt_two_pow_self
  obtain ⟨hxLow, hxHigh⟩ := toInt_range x
  rw [two_pow_eq_two_mul_half ha] at hdist
  generalize (2 : Int) ^ (a - 1) = half at *
  have hproduct : |x.toInt * a| ≤ 2147483648 * half := by
    rw [abs_mul, Nat.abs_cast]
    exact mul_le_mul (abs_le.2 ⟨hxLow, by omega⟩) hamount (by omega) (by omega)
  obtain ⟨hproductLow, hproductHigh⟩ := abs_le.1 hproduct
  obtain ⟨hdistLow, hdistHigh⟩ := abs_le.1 (by linarith : |x.toInt * a - r * (2 * half)| ≤ half)
  have hlow : -2147483649 ≤ 2 * r := le_of_mul_le_mul_right (by linarith) hhalf
  have hhigh : 2 * r ≤ 2147483649 := le_of_mul_le_mul_right (by linarith) hhalf
  omega

/-- The literal form on legal operands, its amount a natural number: the narrowing keeps the primitive's value
(rules R75, R76). -/
theorem scaleRteLiteral_ok {m sh : Word} {a : Nat} (hm : 0 ≤ m.toInt) (hsh : (a : Int) = sh.toInt) (hlow : 1 ≤ a)
    (hhigh : a ≤ 7) (x : Word) :
    ∃ v, scaleRteLiteral x m sh = .ok v ∧
      v.toInt = (x.toInt * a + x.toInt * a / 2 ^ a % 2 + (2 ^ (a - 1) - 1)) / 2 ^ a := by
  have hlegal : legalForLiteral m sh = true := (legalForLiteral_iff m sh).2 ⟨hm, by omega, by omega⟩
  have hbounds := nearestEven_literal_bounds x hlow (nearestEven_evenFormula (x.toInt * a) hlow)
  refine ⟨_, scaleRteLiteral_legal hlegal x, ?_⟩
  rw [← hsh, Int.toNat_natCast]
  exact narrow32_toInt ((fits32_iff _).2 (by omega))

/-- Settles O20: an illegal operand raises, and on legal operands the value is the primitive's formula, which is the
nearest integer with ties to even. -/
theorem literalFormFollowsItsFormula : Obligations.LiteralFormFollowsItsFormula := by
  unfold Obligations.LiteralFormFollowsItsFormula
  intro x m sh
  constructor
  · intro hillegal
    exact scaleRteLiteral_illegal ((legalForLiteral_eq_false_iff m sh).2 hillegal) x
  · intro hm a hsh hlow hhigh
    obtain ⟨v, hok, hv⟩ := scaleRteLiteral_ok hm hsh hlow hhigh x
    refine ⟨v, hok, hv, ?_⟩
    rw [hv]
    exact nearestEven_evenFormula (x.toInt * a) hlow

end Sys2Proof.Machine
end

