-- ==== Sys2Proof/Proofs/PolicySelector.lean ====
section
/-! PROOFS. The policy selector (rules R86, R88, R89, R91): each resolving step in its own register and setting, the
frame of what ends an operation, and from them that the two resolutions are independent. -/

namespace Sys2Proof.Machine

/-! ### The frame of an event and of the end of an operation -/

@[simp] theorem emitIf_policy (b : Bool) (e : Event) (s : State) : (emitIf b e s).policy = s.policy := by
  rw [emitIf_eq]

@[simp] theorem emitIf_diag (b : Bool) (e : Event) (s : State) : (emitIf b e s).diag = s.diag := by
  rw [emitIf_eq]

@[simp] theorem emitIf_lookups (b : Bool) (e : Event) (s : State) : (emitIf b e s).lookups = s.lookups := by
  rw [emitIf_eq]

@[simp] theorem conclude_policy (r : Except Exception Word) (s : State) : (conclude r s).policy = s.policy := by
  cases r <;> rfl

@[simp] theorem conclude_diag (r : Except Exception Word) (s : State) : (conclude r s).diag = s.diag := by
  cases r <;> rfl

/-- How an operation ends does not depend on the two memoized registers. -/
theorem conclude_with_registers (r : Except Exception Word) (s : State) (p : PolicyReg) (d : DiagReg) :
    conclude r { s with policy := p, diag := d } = { conclude r s with policy := p, diag := d } := by
  cases r <;> rfl

@[simp] theorem finishApply_policy (on : Bool) (r : Except Exception Word) (s : State) :
    (finishApply on r s).policy = s.policy := by
  cases r with
  | ok v => exact emitIf_policy on (.after v) s
  | error e => rfl

@[simp] theorem finishApply_diag (on : Bool) (r : Except Exception Word) (s : State) :
    (finishApply on r s).diag = s.diag := by
  cases r with
  | ok v => exact emitIf_diag on (.after v) s
  | error e => rfl

@[simp] theorem finishApply_lookups (on : Bool) (r : Except Exception Word) (s : State) :
    (finishApply on r s).lookups = s.lookups := by
  cases r with
  | ok v => exact emitIf_lookups on (.after v) s
  | error e => rfl

/-! ### `resolve_policy` (rule R86) -/

@[simp] theorem resolvePolicy_diag (s : State) : (resolvePolicy s).2.diag = s.diag := by
  obtain ⟨p, -, h⟩ | ⟨-, h⟩ := resolvePolicy_cases s <;> rw [h]

@[simp] theorem resolvePolicy_cfgDiag (s : State) : (resolvePolicy s).2.cfgDiag = s.cfgDiag := by
  obtain ⟨p, -, h⟩ | ⟨-, h⟩ := resolvePolicy_cases s <;> rw [h]

theorem resolvePolicy_lookups (s : State) : (resolvePolicy s).2.lookups = s.lookups ++ policyLookup s := by
  unfold policyLookup
  obtain ⟨p, hp, h⟩ | ⟨hp, h⟩ := resolvePolicy_cases s
  · simp [h, hp]
  · rw [h, if_pos hp]

/-- The policy is resolved in the same way whatever `REG.DIAG` and the setting of key 1 hold (rule R91). -/
theorem resolvePolicy_with_diag (s : State) (d : DiagReg) (a : CfgAnswer) :
    resolvePolicy { s with diag := d, cfgDiag := a } =
      ((resolvePolicy s).1, { (resolvePolicy s).2 with diag := d, cfgDiag := a }) := by
  obtain ⟨p, hp, h⟩ | ⟨hp, h⟩ := resolvePolicy_cases s
  · rw [h]
    exact resolvePolicy_resolved hp
  · rw [h]
    exact resolvePolicy_unresolved hp

/-! ### `resolve_diag` (rules R88, R89) -/

@[simp] theorem resolveDiag_policy (s : State) : (resolveDiag s).2.policy = s.policy := by
  obtain ⟨on, -, h⟩ | ⟨-, h⟩ := resolveDiag_cases s <;> rw [h]

theorem resolveDiag_lookups (s : State) : (resolveDiag s).2.lookups = s.lookups ++ diagLookup s := by
  unfold diagLookup
  obtain ⟨on, hd, h⟩ | ⟨hd, h⟩ := resolveDiag_cases s
  · simp [h, hd]
  · rw [h, if_pos hd]

/-- The flag is resolved in the same way whatever `REG.POLICY` and the setting of key 0 hold (rule R91). -/
theorem resolveDiag_with_policy (s : State) (p : PolicyReg) (a : CfgAnswer) :
    resolveDiag { s with policy := p, cfgMode := a } =
      ((resolveDiag s).1, { (resolveDiag s).2 with policy := p, cfgMode := a }) := by
  obtain ⟨on, hd, h⟩ | ⟨hd, h⟩ := resolveDiag_cases s
  · rw [h]
    exact resolveDiag_resolved hd
  · rw [h]
    exact resolveDiag_unresolved hd

/-- Settles O34: an absent or empty value is off, a value with a first byte is on. -/
theorem diagClassification : Obligations.DiagClassification :=
  ⟨rfl, rfl, fun _ _ => rfl⟩

/-- Settles O35: the two cases of each resolving step. -/
theorem resolvingStepsAreMemoized : Obligations.ResolvingStepsAreMemoized := fun _ =>
  ⟨fun _ => resolvePolicy_resolved, resolvePolicy_unresolved, fun _ => resolveDiag_resolved, resolveDiag_unresolved⟩

/-! ### The operations -/

/-- `RESOLVE_POLICY` neither reads nor writes `REG.DIAG` or the setting of key 1 (rule R91). -/
theorem exec_resolvePolicy_independent {s t : State} (h : exec .resolvePolicy s = .next t) (d : DiagReg)
    (a : CfgAnswer) :
    t.diag = s.diag ∧
      exec .resolvePolicy { s with diag := d, cfgDiag := a } = .next { t with diag := d, cfgDiag := a } := by
  have hgood : s.fault = .none := exec_next_good h
  rw [exec_resolvePolicy hgood] at h
  cases h
  have hchanged : ({ s with diag := d, cfgDiag := a } : State).fault = .none := hgood
  refine ⟨resolvePolicy_diag s, ?_⟩
  rw [exec_resolvePolicy hchanged, resolvePolicy_with_diag]
  rfl

/-- `RESOLVE_DIAG` neither reads nor writes `REG.POLICY` or the setting of key 0 (rule R91). -/
theorem exec_resolveDiag_independent {s t : State} (h : exec .resolveDiag s = .next t) (p : PolicyReg)
    (a : CfgAnswer) :
    t.policy = s.policy ∧
      exec .resolveDiag { s with policy := p, cfgMode := a } = .next { t with policy := p, cfgMode := a } := by
  have hgood : s.fault = .none := exec_next_good h
  rw [exec_resolveDiag hgood] at h
  cases h
  have hchanged : ({ s with policy := p, cfgMode := a } : State).fault = .none := hgood
  refine ⟨resolveDiag_policy s, ?_⟩
  rw [exec_resolveDiag hchanged, resolveDiag_with_policy]
  rfl

/-- The three direct scalers have one shape: an outcome that the operands alone fix, concluded in the state. -/
theorem exec_scaler_concludes {x m sh : Word} {i : Instr}
    (hi : i ∈ [Instr.scaleSingle x m sh, .scaleRte x m sh, .scaleRteIntent x m sh]) :
    ∃ r, ∀ s : State, s.fault = .none → exec i s = .next (conclude r s) := by
  simp only [List.mem_cons, List.not_mem_nil, or_false] at hi
  obtain rfl | rfl | rfl := hi
  · exact ⟨_, fun _ hgood => exec_scaleSingle hgood x m sh⟩
  · exact ⟨_, fun _ hgood => exec_scaleRte hgood x m sh⟩
  · exact ⟨_, fun _ hgood => exec_scaleRteIntent hgood x m sh⟩

/-- The three direct scalers neither read nor write the two memoized registers (rules R67, R82, R91). -/
theorem exec_scaler_independent {x m sh : Word} {i : Instr}
    (hi : i ∈ [Instr.scaleSingle x m sh, .scaleRte x m sh, .scaleRteIntent x m sh]) {s t : State}
    (h : exec i s = .next t) (p : PolicyReg) (d : DiagReg) :
    t.policy = s.policy ∧ t.diag = s.diag ∧
      exec i { s with policy := p, diag := d } = .next { t with policy := p, diag := d } := by
  obtain ⟨r, hr⟩ := exec_scaler_concludes hi
  have hgood : s.fault = .none := exec_next_good h
  rw [hr s hgood] at h
  cases h
  have hchanged : ({ s with policy := p, diag := d } : State).fault = .none := hgood
  refine ⟨conclude_policy r s, conclude_diag r s, ?_⟩
  rw [hr _ hchanged, conclude_with_registers]

/-- `APPLY` leaves both registers resolved (rule R95). -/
theorem exec_apply_resolves {x m sh : Word} {s t : State} (h : exec (.apply x m sh) s = .next t) :
    t.policy ≠ .unresolved ∧ t.diag ≠ .unresolved := by
  rw [exec_apply (exec_next_good h)] at h
  cases h
  simp [resolvePolicy_policy, resolveDiag_diag]

/-- The lookups of `APPLY`: the policy's, where it is unresolved, and then the flag's (rule R95). -/
theorem exec_apply_lookups {x m sh : Word} {s t : State} (h : exec (.apply x m sh) s = .next t) :
    t.lookups = s.lookups ++ (policyLookup s ++ diagLookup s) := by
  rw [exec_apply (exec_next_good h)] at h
  cases h
  simp [resolveDiag_lookups, resolvePolicy_lookups, diagLookup]

/-- Settles O45: an equation per resolving operation under a change of the other's register and setting, one argument
for the three scalers, and the two lookups of an `APPLY` on a fresh block. -/
theorem resolutionsAreIndependent : Obligations.ResolutionsAreIndependent := by
  unfold Obligations.ResolutionsAreIndependent
  intro s t d p a
  refine ⟨fun h => exec_resolvePolicy_independent h d a, fun h => exec_resolveDiag_independent h p a,
    fun x m sh i hi h => exec_scaler_independent hi h p d, ?_⟩
  intro x m sh hp hd h
  obtain ⟨hpolicy, hdiag⟩ := exec_apply_resolves h
  refine ⟨hpolicy, hdiag, ?_⟩
  rw [exec_apply_lookups h, policyLookup, diagLookup, if_pos hp, if_pos hd]
  rfl

end Sys2Proof.Machine
end

