-- ==== Sys2Proof/Proofs/Exceptions.lean ====
section
/-! PROOFS. Which operations raise and when (rules R106, R110). Every operation ends by concluding with one outcome, a
value or an exception; it raises exactly the exception that this outcome is. What is left is to say of each scaler
when its outcome is a `PreconditionViolation`. -/

namespace Sys2Proof.Machine

/-! ### What is kept up to the end of an operation -/

@[simp] theorem emitIf_fault (b : Bool) (e : Event) (s : State) : (emitIf b e s).fault = s.fault := by
  rw [emitIf_eq]

@[simp] theorem emitIf_client (b : Bool) (e : Event) (s : State) : (emitIf b e s).client = s.client := by
  rw [emitIf_eq]

@[simp] theorem emitIf_responses (b : Bool) (e : Event) (s : State) : (emitIf b e s).responses = s.responses := by
  rw [emitIf_eq]

@[simp] theorem resolvePolicy_fault (s : State) : (resolvePolicy s).2.fault = s.fault := by
  obtain ⟨p, -, h⟩ | ⟨-, h⟩ := resolvePolicy_cases s <;> rw [h]

@[simp] theorem resolvePolicy_client (s : State) : (resolvePolicy s).2.client = s.client := by
  obtain ⟨p, -, h⟩ | ⟨-, h⟩ := resolvePolicy_cases s <;> rw [h]

@[simp] theorem resolvePolicy_responses (s : State) : (resolvePolicy s).2.responses = s.responses := by
  obtain ⟨p, -, h⟩ | ⟨-, h⟩ := resolvePolicy_cases s <;> rw [h]

@[simp] theorem resolveDiag_fault (s : State) : (resolveDiag s).2.fault = s.fault := by
  obtain ⟨on, -, h⟩ | ⟨-, h⟩ := resolveDiag_cases s <;> rw [h]

@[simp] theorem resolveDiag_client (s : State) : (resolveDiag s).2.client = s.client := by
  obtain ⟨on, -, h⟩ | ⟨-, h⟩ := resolveDiag_cases s <;> rw [h]

@[simp] theorem resolveDiag_responses (s : State) : (resolveDiag s).2.responses = s.responses := by
  obtain ⟨on, -, h⟩ | ⟨-, h⟩ := resolveDiag_cases s <;> rw [h]

/-- The policy that `resolve_policy` answers is the one in force (rules R85, R86). -/
theorem resolvePolicy_fst (s : State) : (resolvePolicy s).1 = policyInForce s := by
  unfold policyInForce
  obtain ⟨p, hp, h⟩ | ⟨hp, h⟩ := resolvePolicy_cases s <;> rw [h, hp]

/-! ### The outcome of an operation -/

/-- The operation runs in `s` and ends with the outcome `r`, concluded in a state that is still unfaulted and has
given no response yet. -/
def EndsWith (i : Instr) (s : State) (r : Except Exception Word) : Prop :=
  ∃ u : State, u.fault = .none ∧ u.client = s.client ∧ u.responses = s.responses ∧ exec i s = .next (conclude r u)

/-- An operation raises exactly the exception that is its outcome (rule R110). -/
theorem EndsWith.raises_iff {i : Instr} {s : State} {r : Except Exception Word} (h : EndsWith i s r)
    (e : Exception) : Raises e i s ↔ r = .error e := by
  obtain ⟨u, hfault, hclient, hresponses, hexec⟩ := h
  constructor
  · rintro ⟨t, ht, htfault, -⟩
    obtain rfl : conclude r u = t := by simpa [hexec] using ht
    cases r with
    | ok v =>
      rw [conclude_ok, respondOk_eq, hfault] at htfault
      cases htfault
    | error e' =>
      rw [conclude_error, raise_eq] at htfault
      cases htfault
      rfl
  · rintro rfl
    refine ⟨_, hexec, rfl, ?_⟩
    rw [conclude_error, raise_eq, hclient, hresponses]

theorem endsWith_scaleSingle {s : State} (h : s.fault = .none) (x m sh : Word) :
    EndsWith (.scaleSingle x m sh) s (scaleSingle Config.rangeCheck x m sh) :=
  ⟨s, h, rfl, rfl, exec_scaleSingle h x m sh⟩

theorem endsWith_scaleRte {s : State} (h : s.fault = .none) (x m sh : Word) :
    EndsWith (.scaleRte x m sh) s (scaleRteLiteral x m sh) :=
  ⟨s, h, rfl, rfl, exec_scaleRte h x m sh⟩

theorem endsWith_scaleRteIntent {s : State} (h : s.fault = .none) (x m sh : Word) :
    EndsWith (.scaleRteIntent x m sh) s (scaleRteIntent Config.rangeCheck x m sh) :=
  ⟨s, h, rfl, rfl, exec_scaleRteIntent h x m sh⟩

theorem endsWith_resolvePolicy {s : State} (h : s.fault = .none) :
    EndsWith .resolvePolicy s (.ok (policyAnswer (resolvePolicy s).1)) :=
  ⟨(resolvePolicy s).2, by simp [h], by simp, by simp, exec_resolvePolicy h⟩

theorem endsWith_resolveDiag {s : State} (h : s.fault = .none) :
    EndsWith .resolveDiag s (.ok (diagAnswer (resolveDiag s).1)) :=
  ⟨(resolveDiag s).2, by simp [h], by simp, by simp, exec_resolveDiag h⟩

/-- The last steps of `APPLY` conclude with the scaler's outcome; all they add before is an event (rules R95, R98). -/
theorem finishApply_eq_conclude (on : Bool) (r : Except Exception Word) (s : State) :
    ∃ es, finishApply on r s = conclude r { s with events := es } := by
  cases r with
  | ok v => exact ⟨_, congrArg (respondOk v) (emitIf_eq on (.after v) s)⟩
  | error e => exact ⟨s.events, rfl⟩

/-- The outcome of `APPLY` is that of the scaler under the policy in force (rule R95). -/
theorem endsWith_apply {s : State} (h : s.fault = .none) (x m sh : Word) :
    EndsWith (.apply x m sh) s (scaleUnder (policyInForce s) x m sh) := by
  obtain ⟨es, hes⟩ := finishApply_eq_conclude (resolveDiag (resolvePolicy s).2).1
    (scaleUnder (resolvePolicy s).1 x m sh)
    (emitIf (resolveDiag (resolvePolicy s).2).1 (.before x m sh) (resolveDiag (resolvePolicy s).2).2)
  rw [← resolvePolicy_fst]
  exact ⟨_, by simp [h], by simp, by simp, (exec_apply h x m sh).trans (congrArg _ hes)⟩

/-! ### When a scaler's outcome is a `PreconditionViolation` (rules R60, R74, R77) -/

/-- The range check raises its own exception or none (rule R65). -/
theorem checkedNarrow_ne_preconditionViolation (rc : RangeCheck) (v : Int) :
    checkedNarrow rc v ≠ .error .preconditionViolation := by
  cases hfits : fits32 v with
  | true => simp [checkedNarrow_fits hfits]
  | false => simp [checkedNarrow_wide hfits]

theorem scaleSingle_eq_preconditionViolation_iff (rc : RangeCheck) (x m sh : Word) :
    scaleSingle rc x m sh = .error .preconditionViolation ↔ m.toInt < 0 ∨ sh.toInt < -31 ∨ 7 < sh.toInt := by
  rw [← legalForSingle_eq_false_iff]
  cases hlegal : legalForSingle m sh with
  | true => simp [scaleSingle_legal hlegal, checkedNarrow_ne_preconditionViolation]
  | false => simp [scaleSingle_illegal hlegal]

theorem scaleRteLiteral_eq_preconditionViolation_iff (x m sh : Word) :
    scaleRteLiteral x m sh = .error .preconditionViolation ↔ m.toInt < 0 ∨ sh.toInt < 1 ∨ 7 < sh.toInt := by
  rw [← legalForLiteral_eq_false_iff]
  cases hlegal : legalForLiteral m sh with
  | true => simp [scaleRteLiteral_legal hlegal]
  | false => simp [scaleRteLiteral_illegal hlegal]

theorem scaleRteIntent_eq_preconditionViolation_iff (rc : RangeCheck) (x m sh : Word) :
    scaleRteIntent rc x m sh = .error .preconditionViolation ↔ m.toInt < 0 ∨ sh.toInt < -31 ∨ 7 < sh.toInt := by
  rw [← legalForSingle_eq_false_iff]
  cases hlegal : legalForSingle m sh with
  | true => simp [scaleRteIntent_legal hlegal, checkedNarrow_ne_preconditionViolation]
  | false => simp [scaleRteIntent_illegal hlegal]

/-! ### The statement (rule R106) -/

/-- Settles O42: each operation raises what its outcome is, and each scaler's outcome is a `PreconditionViolation`
exactly on the operands that its precondition excludes. -/
theorem preconditionViolationExactlyWhen : Obligations.PreconditionViolationExactlyWhen := by
  unfold Obligations.PreconditionViolationExactlyWhen
  intro x m sh s hgood
  refine ⟨?_, ?_, ?_, ?_, ?_, ?_, ?_⟩
  · rw [(endsWith_scaleSingle hgood x m sh).raises_iff, scaleSingle_eq_preconditionViolation_iff]
  · rw [(endsWith_scaleRte hgood x m sh).raises_iff, scaleRteLiteral_eq_preconditionViolation_iff]
  · rw [(endsWith_scaleRteIntent hgood x m sh).raises_iff, scaleRteIntent_eq_preconditionViolation_iff]
  · intro hpolicy
    rw [(endsWith_apply hgood x m sh).raises_iff, hpolicy]
    exact scaleSingle_eq_preconditionViolation_iff Config.rangeCheck x m sh
  · intro hpolicy
    rw [(endsWith_apply hgood x m sh).raises_iff, hpolicy]
    exact scaleRteLiteral_eq_preconditionViolation_iff x m sh
  · simp [(endsWith_resolvePolicy hgood).raises_iff]
  · simp [(endsWith_resolveDiag hgood).raises_iff]

end Sys2Proof.Machine
end

