-- ==== Sys2Proof/Proofs/Encoding.lean ====
section
/-! PROOFS. The encoding (rules R35, R45 to R53). A request word is determined by its top 32 bits and its operand
fields; the decoder reads the top bits as the operation code and accepts exactly the codes below 6. -/

namespace Sys2Proof

/-! ### Decoding a packed word (rules R46, R47) -/

@[simp] theorem decode_pack_apply (x m sh : Word) : decode (pack 0#3 x m sh) = .ok (.apply x m sh) := by
  simp [decode]

@[simp] theorem decode_pack_scaleSingle (x m sh : Word) : decode (pack 1#3 x m sh) = .ok (.scaleSingle x m sh) := by
  simp [decode]

@[simp] theorem decode_pack_scaleRte (x m sh : Word) : decode (pack 2#3 x m sh) = .ok (.scaleRte x m sh) := by
  simp [decode]

@[simp] theorem decode_pack_scaleRteIntent (x m sh : Word) :
    decode (pack 3#3 x m sh) = .ok (.scaleRteIntent x m sh) := by
  simp [decode]

@[simp] theorem decode_pack_resolvePolicy (x m sh : Word) : decode (pack 4#3 x m sh) = .ok .resolvePolicy := by
  simp [decode]

@[simp] theorem decode_pack_resolveDiag (x m sh : Word) : decode (pack 5#3 x m sh) = .ok .resolveDiag := by
  simp [decode]

/-- The decoder gives back every encoded operation, one row of the operation table at a time. -/
theorem decode_encode (i : Instr) : decode (encode i) = .ok i := by
  cases i with
  | apply x m sh => exact decode_pack_apply x m sh
  | scaleSingle x m sh => exact decode_pack_scaleSingle x m sh
  | scaleRte x m sh => exact decode_pack_scaleRte x m sh
  | scaleRteIntent x m sh => exact decode_pack_scaleRteIntent x m sh
  | resolvePolicy => exact decode_pack_resolvePolicy _ _ _
  | resolveDiag => exact decode_pack_resolveDiag _ _ _

/-- A request word serialised in front of other bytes is read back as that word (rule R35). -/
theorem decodeBytes_bytesOf {w : ReqWord} {i : Instr} (h : decode w = .ok i) (rest : List Byte) :
    decodeBytes (bytesOf 16 w.toNat ++ rest) = .ok (i, rest) := by
  have hlength : (bytesOf 16 w.toNat).length = 16 := bytesOf_length 16 _
  have htake : (bytesOf 16 w.toNat ++ rest).take 16 = bytesOf 16 w.toNat := List.take_left' hlength
  have hdrop : (bytesOf 16 w.toNat ++ rest).drop 16 = rest := List.drop_left' hlength
  have hword : BitVec.ofNat 128 (natOfBytes (bytesOf 16 w.toNat)) = w := by
    apply BitVec.eq_of_toNat_eq
    rw [natOfBytes_bytesOf, BitVec.toNat_ofNat]
    have := w.isLt
    omega
  unfold decodeBytes
  rw [if_neg (by rw [List.length_append, hlength]; omega), htake, hdrop, hword, h]

/-- Settles O1: the round trip of the word, and of its bytes by reading the word back. -/
theorem decodeOfEncodeIsIdentity : Obligations.DecodeOfEncodeIsIdentity := fun i rest =>
  ⟨decode_encode i, decodeBytes_bytesOf (decode_encode i) rest⟩

/-- Settles O2: each operation's word is packed, and a packed word is the sum of its fields. -/
theorem encodedWordIsTheSumOfItsFields : Obligations.EncodedWordIsTheSumOfItsFields := by
  unfold Obligations.EncodedWordIsTheSumOfItsFields
  intro x m sh
  simp [encode, pack_toNat]

/-! ### The top 32 bits of a word (rules R47, R50) -/

/-- A word is packed from the operation code in its top bits and its own operand fields. -/
theorem eq_pack_of_top {w : ReqWord} {op : BitVec 3} {x m sh : Word} (htop : w.toNat / 2 ^ 96 = op.toNat)
    (hlow : w.toNat % 2 ^ 96 = sh.toNat * 2 ^ 64 + m.toNat * 2 ^ 32 + x.toNat) : w = pack op x m sh := by
  apply BitVec.eq_of_toNat_eq
  rw [pack_toNat]
  omega

theorem fields_sum (w : ReqWord) :
    w.toNat % 2 ^ 96 = (shiftField w).toNat * 2 ^ 64 + (multiplierField w).toNat * 2 ^ 32 + (xField w).toNat := by
  rw [shiftField_toNat, multiplierField_toNat, xField_toNat]
  omega

theorem top_eq_opField {w : ReqWord} (h : rsvField w = 0#29) : w.toNat / 2 ^ 96 = (opField w).toNat := by
  have hrsv : w.toNat / 2 ^ 99 % 2 ^ 29 = 0 := by rw [← rsvField_toNat, h]; rfl
  rw [opField_toNat]
  have := w.isLt
  omega

theorem rsvField_of_decode {w : ReqWord} {i : Instr} (h : decode w = .ok i) : rsvField w = 0#29 := by
  by_contra hrsv
  rw [decode, if_neg hrsv] at h
  cases h

theorem Instr.op_lt (i : Instr) : i.op.toNat < 6 := by
  cases i <;> simp only [Instr.op, BitVec.toNat_ofNat] <;> omega

theorem opcode_cases (op : BitVec 3) :
    op = 0#3 ∨ op = 1#3 ∨ op = 2#3 ∨ op = 3#3 ∨ op = 4#3 ∨ op = 5#3 ∨ op = 6#3 ∨ op = 7#3 := by
  revert op; decide

/-- A packed word spells the operation of its code where that is below 6, and none otherwise (rules R47, R50). -/
theorem decode_pack_cases (op : BitVec 3) (x m sh : Word) :
    (op.toNat < 6 ∧ ∃ i, decode (pack op x m sh) = .ok i ∧ i.op = op) ∨
      (6 ≤ op.toNat ∧ decode (pack op x m sh) = .error (.reservedOp op)) := by
  obtain rfl | rfl | rfl | rfl | rfl | rfl | rfl | rfl := opcode_cases op
  · exact .inl ⟨by decide, _, decode_pack_apply x m sh, rfl⟩
  · exact .inl ⟨by decide, _, decode_pack_scaleSingle x m sh, rfl⟩
  · exact .inl ⟨by decide, _, decode_pack_scaleRte x m sh, rfl⟩
  · exact .inl ⟨by decide, _, decode_pack_scaleRteIntent x m sh, rfl⟩
  · exact .inl ⟨by decide, _, decode_pack_resolvePolicy x m sh, rfl⟩
  · exact .inl ⟨by decide, _, decode_pack_resolveDiag x m sh, rfl⟩
  · exact .inr ⟨by decide, by simp [decode]⟩
  · exact .inr ⟨by decide, by simp [decode]⟩

/-- The decoder reads the top 32 bits as the operation code, and only codes below 6 (rules R47, R50). -/
theorem exists_decode_op_iff (w : ReqWord) (op : BitVec 3) :
    (∃ i, decode w = .ok i ∧ i.op = op) ↔ w.toNat / 2 ^ 96 = op.toNat ∧ op.toNat < 6 := by
  constructor
  · rintro ⟨i, hi, rfl⟩
    have htop := top_eq_opField (rsvField_of_decode hi)
    rw [eq_pack_of_top htop (fields_sum w)] at hi
    obtain ⟨hlt, j, hj, hop⟩ | ⟨-, herror⟩ :=
      decode_pack_cases (opField w) (xField w) (multiplierField w) (shiftField w)
    · obtain rfl : i = j := Except.ok.inj (hi.symm.trans hj)
      rw [htop, hop]
      exact ⟨rfl, hlt⟩
    · exact absurd (hi.symm.trans herror) (by simp)
  · rintro ⟨htop, hop⟩
    rw [eq_pack_of_top htop (fields_sum w)]
    obtain ⟨-, hdecoded⟩ | ⟨hreserved, -⟩ :=
      decode_pack_cases op (xField w) (multiplierField w) (shiftField w)
    · exact hdecoded
    · omega

theorem exists_decode_iff (w : ReqWord) : (∃ i, decode w = .ok i) ↔ w.toNat / 2 ^ 96 < 6 := by
  constructor
  · rintro ⟨i, hi⟩
    obtain ⟨htop, hop⟩ := (exists_decode_op_iff w i.op).1 ⟨i, hi, rfl⟩
    rwa [htop]
  · intro hlt
    have hop : (BitVec.ofNat 3 (w.toNat / 2 ^ 96)).toNat = w.toNat / 2 ^ 96 := by
      rw [BitVec.toNat_ofNat]
      omega
    obtain ⟨i, hi, -⟩ := (exists_decode_op_iff w (BitVec.ofNat 3 (w.toNat / 2 ^ 96))).2 ⟨hop.symm, by omega⟩
    exact ⟨i, hi⟩

/-- Settles O3: a word that decodes has a code below 6, and a step at a word that does not is the refusal. -/
theorem reservedWordsAreRefusedAndOnlyThose : Obligations.ReservedWordsAreRefusedAndOnlyThose := by
  unfold Obligations.ReservedWordsAreRefusedAndOnlyThose
  intro w
  refine ⟨(exists_decode_iff w).symm, fun s r rest hs htop => ?_⟩
  cases hw : decode w with
  | ok i => exact absurd ((exists_decode_iff w).1 ⟨i, hw⟩) (by omega)
  | error e => exact ⟨e, Machine.step_invalid hs hw⟩

/-- Settles O4: a word with given field values is the packed one. -/
theorem decodeReadsTheFields : Obligations.DecodeReadsTheFields := by
  unfold Obligations.DecodeReadsTheFields
  intro w x m sh hlow
  have hpack : ∀ op : BitVec 3, w.toNat / 2 ^ 96 = op.toNat → w = pack op x m sh := fun _ htop =>
    eq_pack_of_top htop hlow
  refine ⟨fun h => ?_, fun h => ?_, fun h => ?_, fun h => ?_, fun h => ?_, fun h => ?_⟩
  · rw [hpack 0#3 h, decode_pack_apply]
  · rw [hpack 1#3 h, decode_pack_scaleSingle]
  · rw [hpack 2#3 h, decode_pack_scaleRte]
  · rw [hpack 3#3 h, decode_pack_scaleRteIntent]
  · rw [hpack 4#3 h, decode_pack_resolvePolicy]
  · rw [hpack 5#3 h, decode_pack_resolveDiag]

/-! ### Mask and match (rule R47) -/

/-- The mask keeps the top 32 bits in place. -/
theorem and_opMask_toNat (w : ReqWord) : (w &&& opMask).toNat = w.toNat / 2 ^ 96 * 2 ^ 96 := by
  have hmask : opMask = BitVec.allOnes 128 <<< 96 := by decide
  rw [hmask, ← BitVec.shiftLeft_ushiftRight, BitVec.toNat_shiftLeft, BitVec.toNat_ushiftRight,
    Nat.shiftRight_eq_div_pow, Nat.shiftLeft_eq]
  have := w.isLt
  omega

theorem Instr.opMatch_toNat (i : Instr) : i.opMatch.toNat = i.op.toNat * 2 ^ 96 := by
  rw [Instr.opMatch, BitVec.toNat_shiftLeft, BitVec.toNat_setWidth, Nat.shiftLeft_eq]
  have := i.op.isLt
  omega

/-- Settles O5: both sides say that the top 32 bits are the operation's code. -/
theorem decoderMatchesMaskAndMatch : Obligations.DecoderMatchesMaskAndMatch := by
  unfold Obligations.DecoderMatchesMaskAndMatch
  intro w i
  rw [exists_decode_op_iff, and_iff_left i.op_lt, ← BitVec.toNat_inj, and_opMask_toNat, i.opMatch_toNat]
  omega

/-- Settles O6: each sample word is evaluated. -/
theorem specSampleWordsDecode : Obligations.SpecSampleWordsDecode := by
  unfold Obligations.SpecSampleWordsDecode
  decide

/-! ### Bytes (rule R35) -/

/-- Byte `i` of the byte form is the number shifted down by `i` bytes. -/
theorem bytesOf_getElem? {n i : Nat} (h : i < n) (w : Nat) :
    (bytesOf n w)[i]? = some (BitVec.ofNat 8 (w / 256 ^ i)) := by
  induction n generalizing i w with
  | zero => omega
  | succ n ih =>
    cases i with
    | zero => simp [bytesOf]
    | succ i => rw [bytesOf, List.getElem?_cons_succ, ih (by omega), Nat.div_div_eq_div_mul, pow_succ']

/-- Byte `i` of a word's byte form holds its bits `[8i+7:8i]`. -/
theorem bytesOf_getElem?_bits {n i k : Nat} (h : i < n) (w : BitVec k) :
    (bytesOf n w.toNat)[i]? = some (w.extractLsb' (8 * i) 8) := by
  rw [bytesOf_getElem? h, Option.some_inj]
  apply BitVec.eq_of_toNat_eq
  rw [BitVec.extractLsb'_toNat, Nat.shiftRight_eq_div_pow, BitVec.toNat_ofNat, pow_mul]
  norm_num

/-- Settles O7: both serialised forms are the byte form of a word. -/
theorem byteIHoldsItsEightBits : Obligations.ByteIHoldsItsEightBits :=
  ⟨fun w _ h => bytesOf_getElem?_bits h w, fun n r _ h => bytesOf_getElem?_bits h (r.word n),
    fun _ => bytesOf_length 16 _, fun _ _ => bytesOf_length 8 _⟩

/-! ### Assembling a line (rule R53) -/

/-- An operand is well formed when its integer is in range and a pattern has 32 bits. -/
theorem AsmOperand.wf_iff (o : AsmOperand) :
    o.wf = true ↔ -2147483648 ≤ o.value ∧ o.value ≤ 2147483647 ∧ ∀ p, o = .hex p → p < 2 ^ 32 := by
  cases o with
  | hex p => simp [AsmOperand.wf, AsmOperand.patternFits]; tauto
  | _ => simp [AsmOperand.wf, AsmOperand.patternFits]

/-- The field of a well-formed operand holds the integer written. -/
theorem AsmOperand.word_toInt {o : AsmOperand} (h : o.wf = true) : o.word.toInt = o.value := by
  obtain ⟨hlow, hhigh, -⟩ := o.wf_iff.1 h
  exact Machine.narrow32_toInt ((Machine.fits32_iff _).2 ⟨hlow, hhigh⟩)

theorem AsmLine.assemble_wf {l : AsmLine} (h : l.wf = true) : l.assemble = some (encode l.instr) := by
  rw [AsmLine.assemble, if_pos h]

theorem AsmLine.assemble_not_wf {l : AsmLine} (h : l.wf = false) : l.assemble = none := by
  rw [AsmLine.assemble, if_neg (by simp [h])]

/-- Settles O8: a line assembles exactly when its three operands are well formed, and then each field holds the
integer written. -/
theorem assembledLineKeepsItsIntegers : Obligations.AssembledLineKeepsItsIntegers := by
  unfold Obligations.AssembledLineKeepsItsIntegers
  refine ⟨fun a b c => ⟨fun hrange => ?_, fun hbad => ?_⟩, ⟨_, rfl, rfl⟩, ⟨_, rfl, rfl⟩⟩
  · have hwf : ∀ o ∈ [a, b, c], o.wf = true := fun o ho => o.wf_iff.2 (hrange o ho)
    have ha : a.wf = true := hwf a (by simp)
    have hb : b.wf = true := hwf b (by simp)
    have hc : c.wf = true := hwf c (by simp)
    have hline : (a.wf && b.wf && c.wf) = true := by simp [ha, hb, hc]
    exact ⟨a.word, b.word, c.word, AsmOperand.word_toInt ha, AsmOperand.word_toInt hb, AsmOperand.word_toInt hc,
      AsmLine.assemble_wf hline, AsmLine.assemble_wf hline, AsmLine.assemble_wf hline, AsmLine.assemble_wf hline⟩
  · obtain ⟨o, ho, hout⟩ := hbad
    have howf : ¬o.wf = true := by
      rw [AsmOperand.wf_iff]
      rintro ⟨hlow, hhigh, hpattern⟩
      obtain hlow' | hhigh' | ⟨p, hp, hwide⟩ := hout
      · omega
      · omega
      · exact absurd (hpattern p hp) (by omega)
    have hline : (a.wf && b.wf && c.wf) = false := by
      rw [← Bool.not_eq_true]
      simp only [Bool.and_eq_true]
      rintro ⟨⟨ha, hb⟩, hc⟩
      simp only [List.mem_cons, List.not_mem_nil, or_false] at ho
      obtain rfl | rfl | rfl := ho
      · exact howf ha
      · exact howf hb
      · exact howf hc
    exact ⟨AsmLine.assemble_not_wf hline, AsmLine.assemble_not_wf hline, AsmLine.assemble_not_wf hline,
      AsmLine.assemble_not_wf hline⟩

/-! ### Response and event words (rules R48, R49, R51) -/

theorem Machine.Response.word_toNat (n : Nat) (r : Machine.Response) :
    (r.word n).toNat = r.status.toNat * 2 ^ 32 + (r.resultBits n).toNat := by
  rw [Machine.Response.word, append_toNat, append_toNat, BitVec.toNat_ofNat]
  omega

/-- Settles O9: each word is the sum of its fields at their places. -/
theorem portWordsHoldTheirFields : Obligations.PortWordsHoldTheirFields := by
  unfold Obligations.PortWordsHoldTheirFields
  intro n r x m sh e
  have hfree : (Config.unspecifiedResult n).toNat < 2 ^ 32 := (Config.unspecifiedResult n).isLt
  simp only [Machine.Response.word_toNat, Machine.Response.status, Machine.Response.resultBits,
    Machine.Exception.code, Machine.Event.word, append_toNat, BitVec.toNat_ofNat]
  omega

end Sys2Proof
end

