-- ==== Sys2Proof/Proofs/Steps.lean ====
section
/-! PROOFS. One step, reset and the stopped block (rules R16, R31, R33, R39, R111, R125, R126). -/

namespace Sys2Proof.Machine

/-- Settles O10: the request branch of a step. -/
theorem stepRunsTheDecodedRequest : Obligations.StepRunsTheDecodedRequest := fun _ _ _ _ _ hs hw =>
  step_request hs hw

/-- Settles O11: the branch of a step for the host's change of each key, and the waiting step. -/
theorem hostChangesOnlyTheSetting : Obligations.HostChangesOnlyTheSetting := by
  unfold Obligations.HostChangesOnlyTheSetting
  intro s
  refine ⟨fun a rest hs => step_setCfg hs, fun a rest hs => step_setCfg hs, fun hs hgood => ?_⟩
  rw [step_idle hs, unlessFaulted_good hgood]

/-- Settles O12: the reset branch of a step. -/
theorem resetEventClearsExactlyTheRegisters : Obligations.ResetEventClearsExactlyTheRegisters := fun _ _ hs =>
  step_reset hs

theorem PolicyReg.code_eq_zero_iff (p : PolicyReg) : p.code = 0#2 ↔ p = .unresolved := by
  rcases p with _ | _ | _ <;> decide

theorem DiagReg.code_eq_zero_iff (d : DiagReg) : d.code = 0#2 ↔ d = .unresolved := by
  rcases d with _ | _ | _ <;> decide

theorem FaultReg.code_eq_zero_iff (f : FaultReg) : f.code = 0#2 ↔ f = .none := by
  rcases f with _ | _ | _ <;> decide

/-- Settles O13: in each register code 0 is the reset value's and no other's. -/
theorem resetLeavesEveryRegisterZero : Obligations.ResetLeavesEveryRegisterZero :=
  ⟨rfl, rfl, rfl, fun p d f hp hd hf =>
    ⟨p.code_eq_zero_iff.1 hp, d.code_eq_zero_iff.1 hd, f.code_eq_zero_iff.1 hf⟩⟩

/-- Settles O41: a stopped block runs no operation, and a step of it with nothing pending is the fault too. -/
theorem faultedBlockRunsNothing : Obligations.FaultedBlockRunsNothing := by
  unfold Obligations.FaultedBlockRunsNothing
  intro s e hfault
  refine ⟨exec_latched hfault, fun r w rest i hs hw => ?_, step_stopped hfault⟩
  have htaken : ({ s with inputs := rest, client := r } : State).fault = .cause e := hfault
  rw [step_request hs hw, exec_latched htaken]

/-- Settles O33: the four rows of the classification; the last from the two tests that fail. -/
theorem modeClassification : Obligations.ModeClassification := by
  unfold Obligations.ModeClassification
  refine ⟨rfl, rfl, rfl, fun bs hempty heven => ?_⟩
  have heven' : bs ≠ evenValue := heven
  simp only [classifyMode, if_neg hempty, if_neg heven']

end Sys2Proof.Machine
end

