-- ==== Sys2Proof/Proofs/Operations.lean ====
section
/-! PROOFS. Everything an operation does, said once for all six (rules R62, R79, R80, R86 to R90, R95 to R98, R110):
an unfaulted block resolves what the operation needs, emits its events, and concludes with one outcome. -/

namespace Sys2Proof.Machine

/-! ### What an operation needs, answers and emits -/

/-- The operation resolves `REG.POLICY` (rules R87, R95). -/
def usesPolicy : Instr → Bool
  | .apply .. => true
  | .scaleSingle .. => false
  | .scaleRte .. => false
  | .scaleRteIntent .. => false
  | .resolvePolicy => true
  | .resolveDiag => false

/-- The operation resolves `REG.DIAG` (rules R90, R95). -/
def usesDiag : Instr → Bool
  | .apply .. => true
  | .scaleSingle .. => false
  | .scaleRte .. => false
  | .scaleRteIntent .. => false
  | .resolvePolicy => false
  | .resolveDiag => true

/-- What the operation concludes with under a policy and a flag. -/
def outcome (i : Instr) (p : Policy) (on : Bool) : Except Exception Word :=
  match i with
  | .apply x m sh => scaleUnder p x m sh
  | .scaleSingle x m sh => scaleSingle Config.rangeCheck x m sh
  | .scaleRte x m sh => scaleRteLiteral x m sh
  | .scaleRteIntent x m sh => scaleRteIntent Config.rangeCheck x m sh
  | .resolvePolicy => .ok (policyAnswer p)
  | .resolveDiag => .ok (diagAnswer on)

/-- The `AFTER` event of an outcome: none where the scaler raised (rule R98). -/
def afterEvents : Except Exception Word → List Event
  | .ok v => [.after v]
  | .error _ => []

/-- The hook's events: `APPLY`'s alone, and with the flag on (rules R95, R97). -/
def hookEvents (i : Instr) (p : Policy) (on : Bool) : List Event :=
  match i with
  | .apply x m sh => if on then .before x m sh :: afterEvents (scaleUnder p x m sh) else []
  | .scaleSingle .. => []
  | .scaleRte .. => []
  | .scaleRteIntent .. => []
  | .resolvePolicy => []
  | .resolveDiag => []

/-- The state in which the operation concludes: the registers it needs are resolved and its events emitted. -/
def prepared (i : Instr) (s : State) : State :=
  { s with
    policy := if usesPolicy i then .resolved (policyInForce s) else s.policy
    diag := if usesDiag i then .resolved (diagInForce s) else s.diag
    lookups := s.lookups ++ (if usesPolicy i then policyLookup s else []) ++ (if usesDiag i then diagLookup s else [])
    events := s.events ++ (if usesPolicy i then policyWarning s else []) ++
      hookEvents i (policyInForce s) (diagInForce s) }

/-- The response that an outcome gives (rules R48, R49). -/
def responseOf : Except Exception Word → Response
  | .ok v => .ok v
  | .error e => .exception e

/-- The latch after an outcome (rule R110). -/
def faultOf : Except Exception Word → FaultReg
  | .ok _ => .none
  | .error e => .cause e

/-! ### The end of an operation -/

@[simp] theorem conclude_cfgMode (r : Except Exception Word) (s : State) : (conclude r s).cfgMode = s.cfgMode := by
  cases r <;> rfl

@[simp] theorem conclude_cfgDiag (r : Except Exception Word) (s : State) : (conclude r s).cfgDiag = s.cfgDiag := by
  cases r <;> rfl

@[simp] theorem conclude_inputs (r : Except Exception Word) (s : State) : (conclude r s).inputs = s.inputs := by
  cases r <;> rfl

@[simp] theorem conclude_client (r : Except Exception Word) (s : State) : (conclude r s).client = s.client := by
  cases r <;> rfl

@[simp] theorem conclude_lookups (r : Except Exception Word) (s : State) : (conclude r s).lookups = s.lookups := by
  cases r <;> rfl

@[simp] theorem conclude_events (r : Except Exception Word) (s : State) : (conclude r s).events = s.events := by
  cases r <;> rfl

@[simp] theorem conclude_responses (r : Except Exception Word) (s : State) :
    (conclude r s).responses = s.responses ++ [(s.client, responseOf r)] := by
  cases r <;> rfl

theorem conclude_fault (r : Except Exception Word) {s : State} (h : s.fault = .none) :
    (conclude r s).fault = faultOf r := by
  cases r with
  | ok v => exact h
  | error e => rfl

/-! ### The state before the end, field by field -/

@[simp] theorem prepared_policy (i : Instr) (s : State) :
    (prepared i s).policy = if usesPolicy i then .resolved (policyInForce s) else s.policy := rfl

@[simp] theorem prepared_diag (i : Instr) (s : State) :
    (prepared i s).diag = if usesDiag i then .resolved (diagInForce s) else s.diag := rfl

@[simp] theorem prepared_fault (i : Instr) (s : State) : (prepared i s).fault = s.fault := rfl

@[simp] theorem prepared_cfgMode (i : Instr) (s : State) : (prepared i s).cfgMode = s.cfgMode := rfl

@[simp] theorem prepared_cfgDiag (i : Instr) (s : State) : (prepared i s).cfgDiag = s.cfgDiag := rfl

@[simp] theorem prepared_inputs (i : Instr) (s : State) : (prepared i s).inputs = s.inputs := rfl

@[simp] theorem prepared_client (i : Instr) (s : State) : (prepared i s).client = s.client := rfl

@[simp] theorem prepared_lookups (i : Instr) (s : State) : (prepared i s).lookups =
    s.lookups ++ (if usesPolicy i then policyLookup s else []) ++ (if usesDiag i then diagLookup s else []) := rfl

@[simp] theorem prepared_events (i : Instr) (s : State) : (prepared i s).events =
    s.events ++ (if usesPolicy i then policyWarning s else []) ++ hookEvents i (policyInForce s) (diagInForce s) := rfl

@[simp] theorem prepared_responses (i : Instr) (s : State) : (prepared i s).responses = s.responses := rfl

/-! ### The resolving steps in one equation each -/

theorem policyInForce_of_resolved {s : State} (h : s.policy ≠ .unresolved) :
    .resolved (policyInForce s) = s.policy := by
  unfold policyInForce
  cases hp : s.policy with
  | unresolved => exact absurd hp h
  | resolved p => rfl

theorem diagInForce_of_resolved {s : State} (h : s.diag ≠ .unresolved) : .resolved (diagInForce s) = s.diag := by
  unfold diagInForce
  cases hd : s.diag with
  | unresolved => exact absurd hd h
  | resolved on => rfl

theorem policyLookup_of_resolved {s : State} (h : s.policy ≠ .unresolved) : policyLookup s = [] := if_neg h

theorem policyLookup_of_unresolved {s : State} (h : s.policy = .unresolved) :
    policyLookup s = [(.roundingMode, s.cfgMode)] := if_pos h

theorem diagLookup_of_resolved {s : State} (h : s.diag ≠ .unresolved) : diagLookup s = [] := if_neg h

theorem diagLookup_of_unresolved {s : State} (h : s.diag = .unresolved) :
    diagLookup s = [(.diagnosticsEnable, s.cfgDiag)] := if_pos h

theorem policyWarning_of_resolved {s : State} (h : s.policy ≠ .unresolved) : policyWarning s = [] :=
  if_neg fun ⟨hp, _⟩ => h hp

/-- `resolve_policy`, whether or not it looks up (rules R86, R92). -/
theorem resolvePolicy_eq (s : State) : resolvePolicy s =
    (policyInForce s, { s with
      policy := .resolved (policyInForce s)
      lookups := s.lookups ++ policyLookup s
      events := s.events ++ policyWarning s }) := by
  by_cases hp : s.policy = .unresolved
  · rw [resolvePolicy_unresolved hp, policyLookup_of_unresolved hp]
    simp [policyInForce, policyWarning, hp]
  · rw [policyLookup_of_resolved hp, policyWarning_of_resolved hp, List.append_nil, List.append_nil,
      policyInForce_of_resolved hp]
    exact resolvePolicy_resolved (policyInForce_of_resolved hp).symm

/-- `resolve_diag`, whether or not it looks up (rule R89). -/
theorem resolveDiag_eq (s : State) : resolveDiag s =
    (diagInForce s, { s with
      diag := .resolved (diagInForce s)
      lookups := s.lookups ++ diagLookup s }) := by
  by_cases hd : s.diag = .unresolved
  · rw [resolveDiag_unresolved hd, diagLookup_of_unresolved hd]
    simp [diagInForce, hd]
  · rw [diagLookup_of_resolved hd, List.append_nil, diagInForce_of_resolved hd]
    exact resolveDiag_resolved (diagInForce_of_resolved hd).symm

/-- The last steps of `APPLY`: its hook's `AFTER`, and the end of the operation (rules R95, R98). -/
theorem finishApply_eq (on : Bool) (r : Except Exception Word) (s : State) :
    finishApply on r s = conclude r { s with events := s.events ++ if on then afterEvents r else [] } := by
  cases r with
  | ok v => exact congrArg (respondOk v) (emitIf_eq on (.after v) s)
  | error e => cases on <;> simp [finishApply, conclude, afterEvents]

/-! ### Every operation -/

/-- An unfaulted block performs the operation: its preparation, and then its outcome concludes it. -/
theorem exec_eq {s : State} (hgood : s.fault = .none) (i : Instr) :
    exec i s = .next (conclude (outcome i (policyInForce s) (diagInForce s)) (prepared i s)) := by
  cases i with
  | apply x m sh =>
    rw [exec_apply hgood, resolvePolicy_eq, resolveDiag_eq, emitIf_eq, finishApply_eq]
    unfold prepared outcome hookEvents usesPolicy usesDiag
    have hdiag : ∀ p ls es, diagInForce { s with policy := p, lookups := ls, events := es } = diagInForce s :=
      fun _ _ _ => rfl
    have hlookup : ∀ p ls es, diagLookup { s with policy := p, lookups := ls, events := es } = diagLookup s :=
      fun _ _ _ => rfl
    simp only [hdiag, hlookup]
    cases diagInForce s <;> simp
  | scaleSingle x m sh =>
    rw [exec_scaleSingle hgood]
    simp [prepared, outcome, hookEvents, usesPolicy, usesDiag]
  | scaleRte x m sh =>
    rw [exec_scaleRte hgood]
    simp [prepared, outcome, hookEvents, usesPolicy, usesDiag]
  | scaleRteIntent x m sh =>
    rw [exec_scaleRteIntent hgood]
    simp [prepared, outcome, hookEvents, usesPolicy, usesDiag]
  | resolvePolicy =>
    rw [exec_resolvePolicy hgood, resolvePolicy_eq]
    simp [prepared, outcome, hookEvents, usesPolicy, usesDiag, conclude]
  | resolveDiag =>
    rw [exec_resolveDiag hgood, resolveDiag_eq]
    simp [prepared, outcome, hookEvents, usesPolicy, usesDiag, conclude]

/-- The inversion lemma of an operation. -/
theorem exec_next {i : Instr} {s t : State} (h : exec i s = .next t) :
    s.fault = .none ∧ t = conclude (outcome i (policyInForce s) (diagInForce s)) (prepared i s) := by
  have hgood : s.fault = .none := exec_next_good h
  rw [exec_eq hgood] at h
  cases h
  exact ⟨hgood, rfl⟩

/-! ### The state after an operation, field by field -/

section
variable {i : Instr} {s t : State}

theorem exec_policy (h : exec i s = .next t) :
    t.policy = if usesPolicy i then .resolved (policyInForce s) else s.policy := by
  obtain ⟨-, rfl⟩ := exec_next h
  rw [conclude_policy, prepared_policy]

theorem exec_diag (h : exec i s = .next t) :
    t.diag = if usesDiag i then .resolved (diagInForce s) else s.diag := by
  obtain ⟨-, rfl⟩ := exec_next h
  rw [conclude_diag, prepared_diag]

theorem exec_fault (h : exec i s = .next t) : t.fault = faultOf (outcome i (policyInForce s) (diagInForce s)) := by
  obtain ⟨hgood, rfl⟩ := exec_next h
  exact conclude_fault _ hgood

theorem exec_cfgMode (h : exec i s = .next t) : t.cfgMode = s.cfgMode := by
  obtain ⟨-, rfl⟩ := exec_next h
  rw [conclude_cfgMode, prepared_cfgMode]

theorem exec_cfgDiag (h : exec i s = .next t) : t.cfgDiag = s.cfgDiag := by
  obtain ⟨-, rfl⟩ := exec_next h
  rw [conclude_cfgDiag, prepared_cfgDiag]

theorem exec_inputs (h : exec i s = .next t) : t.inputs = s.inputs := by
  obtain ⟨-, rfl⟩ := exec_next h
  rw [conclude_inputs, prepared_inputs]

theorem exec_client (h : exec i s = .next t) : t.client = s.client := by
  obtain ⟨-, rfl⟩ := exec_next h
  rw [conclude_client, prepared_client]

theorem exec_lookups (h : exec i s = .next t) : t.lookups =
    s.lookups ++ (if usesPolicy i then policyLookup s else []) ++ (if usesDiag i then diagLookup s else []) := by
  obtain ⟨-, rfl⟩ := exec_next h
  rw [conclude_lookups, prepared_lookups]

theorem exec_events (h : exec i s = .next t) : t.events =
    s.events ++ (if usesPolicy i then policyWarning s else []) ++ hookEvents i (policyInForce s) (diagInForce s) := by
  obtain ⟨-, rfl⟩ := exec_next h
  rw [conclude_events, prepared_events]

theorem exec_responses (h : exec i s = .next t) :
    t.responses = s.responses ++ [(s.client, responseOf (outcome i (policyInForce s) (diagInForce s)))] := by
  obtain ⟨-, rfl⟩ := exec_next h
  rw [conclude_responses, prepared_client, prepared_responses]

/-- An operation gives one response, to its sender, and the latch changes as that response says (rules R31, R110). -/
theorem exec_answers (h : exec i s = .next t) :
    (∃ v, t.responses = s.responses ++ [(s.client, .ok v)] ∧ t.fault = s.fault) ∨
      ∃ e, t.responses = s.responses ++ [(s.client, .exception e)] ∧ t.fault = .cause e := by
  rw [exec_responses h, exec_fault h, exec_next_good h]
  cases outcome i (policyInForce s) (diagInForce s) with
  | ok v => exact .inl ⟨v, rfl, rfl⟩
  | error e => exact .inr ⟨e, rfl, rfl⟩

end

end Sys2Proof.Machine
end

