-- ==== Sys2Proof/Proofs/Rounding.lean ====
section
/-! PROOFS. The rounding of the scalers (rules R64, R66, R72, R77, R78, R81). Strategy A's formula is the floor or the
integer above it, as the primitive's is; the nearest integer with ties to even is unique, odd and non-decreasing. -/

namespace Sys2Proof.Machine

/-! ### The nearest integer, ties to even (rule R72) -/

/-- The nearest integer does not decrease: were it to, both values would be the same tie between two neighbours, and
both of these even. -/
theorem NearestEven.mono {v w r q : Int} {a : Nat} (hr : NearestEven v a r) (hq : NearestEven w a q) (hvw : v ≤ w) :
    r ≤ q := by
  obtain ⟨hrdist, hreven⟩ := hr
  obtain ⟨hqdist, hqeven⟩ := hq
  have hpow : (0 : Int) < 2 ^ a := by positivity
  generalize (2 : Int) ^ a = d at *
  by_contra hlt
  obtain ⟨k, hk, rfl⟩ : ∃ k, 1 ≤ k ∧ r = q + k := ⟨r - q, by omega, by omega⟩
  have hlow : -(v - (q + k) * d) ≤ |v - (q + k) * d| := neg_le_abs _
  have hhigh : w - q * d ≤ |w - q * d| := le_abs_self _
  have hkd : k * d ≤ 1 * d := by linarith
  obtain rfl : k = 1 := le_antisymm (le_of_mul_le_mul_right hkd hpow) hk
  have hreven' := hreven (by linarith)
  have hqeven' := hqeven (by linarith)
  omega

theorem NearestEven.unique {v r q : Int} {a : Nat} (hr : NearestEven v a r) (hq : NearestEven v a q) : r = q :=
  le_antisymm (hr.mono hq le_rfl) (hq.mono hr le_rfl)

theorem NearestEven.neg {v r : Int} {a : Nat} (h : NearestEven v a r) : NearestEven (-v) a (-r) := by
  obtain ⟨hdist, heven⟩ := h
  have hflip : |-v - -r * 2 ^ a| = |v - r * 2 ^ a| := by rw [← abs_neg]; ring_nf
  unfold NearestEven
  rw [hflip]
  exact ⟨hdist, fun htie => by have := heven htie; omega⟩

theorem nearestEven_zero (a : Nat) : NearestEven 0 a 0 := by
  unfold NearestEven
  simp

/-- Settles O18: the primitive's formula is a nearest integer with ties to even, and there is only one. -/
theorem roundToEvenIsNearestTiesToEven : Obligations.RoundToEvenIsNearestTiesToEven := by
  unfold Obligations.RoundToEvenIsNearestTiesToEven
  intro v a ha
  have hnearest := nearestEven_evenFormula v ha
  exact ⟨_, roundToEven_eq v ha, hnearest, fun r' hr' => hr'.unique hnearest⟩

/-! ### The range check (rules R65, R78) -/

theorem checkedNarrow_eq_ok_iff (rc : RangeCheck) (r : Int) (v : Word) :
    checkedNarrow rc r = .ok v ↔ v.toInt = r := by
  constructor
  · intro h
    cases hfits : fits32 r with
    | true =>
      rw [checkedNarrow_fits hfits] at h
      rw [← Except.ok.inj h, narrow32_toInt hfits]
    | false =>
      rw [checkedNarrow_wide hfits] at h
      cases h
  · rintro rfl
    exact checkedNarrow_toInt v rc

theorem checkedNarrow_eq_rangeFailure_iff (rc : RangeCheck) (r : Int) :
    checkedNarrow rc r = .error .rangeAssertionFailure ↔ r < -2147483648 ∨ 2147483647 < r := by
  rw [← fits32_eq_false_iff]
  cases hfits : fits32 r with
  | true => simp [checkedNarrow_fits hfits]
  | false => simp [checkedNarrow_wide hfits]

/-! ### What each scaler answers -/

theorem scaleSingle_eq_ok_iff (rc : RangeCheck) (x m sh v : Word) :
    scaleSingle rc x m sh = .ok v ↔ legalForSingle m sh = true ∧ v.toInt = singleResult64 x m sh := by
  cases hlegal : legalForSingle m sh with
  | true => simp [scaleSingle_legal hlegal, checkedNarrow_eq_ok_iff]
  | false => simp [scaleSingle_illegal hlegal]

theorem scaleSingle_eq_rangeFailure_iff (rc : RangeCheck) (x m sh : Word) :
    scaleSingle rc x m sh = .error .rangeAssertionFailure ↔
      legalForSingle m sh = true ∧ (singleResult64 x m sh < -2147483648 ∨ 2147483647 < singleResult64 x m sh) := by
  cases hlegal : legalForSingle m sh with
  | true => simp [scaleSingle_legal hlegal, checkedNarrow_eq_rangeFailure_iff]
  | false => simp [scaleSingle_illegal hlegal]

/-- The nearest integer that the intent form checks and narrows, at legal operands (rules R77, R78). -/
theorem exists_nearestEven_product {m sh : Word} (hlegal : legalForSingle m sh = true) (x : Word) :
    ∃ r, NearestEven (x.toInt * m.toInt) (totalShift sh) r ∧ ∀ rc, scaleRteIntent rc x m sh = checkedNarrow rc r := by
  obtain ⟨-, hshift, -⟩ := totalShift_eq hlegal
  exact ⟨_, nearestEven_evenFormula _ (by omega), fun rc => scaleRteIntent_legal hlegal rc x⟩

theorem scaleRteIntent_eq_ok_iff (rc : RangeCheck) (x m sh v : Word) :
    scaleRteIntent rc x m sh = .ok v ↔
      legalForSingle m sh = true ∧ NearestEven (x.toInt * m.toInt) (totalShift sh) v.toInt := by
  cases hlegal : legalForSingle m sh with
  | true =>
    obtain ⟨r, hr, hform⟩ := exists_nearestEven_product hlegal x
    rw [hform, checkedNarrow_eq_ok_iff]
    exact ⟨fun hv => ⟨rfl, hv ▸ hr⟩, fun ⟨_, hv⟩ => hv.unique hr⟩
  | false => simp [scaleRteIntent_illegal hlegal]

theorem scaleRteIntent_eq_rangeFailure_iff (rc : RangeCheck) (x m sh : Word) :
    scaleRteIntent rc x m sh = .error .rangeAssertionFailure ↔
      legalForSingle m sh = true ∧
        ∃ r, NearestEven (x.toInt * m.toInt) (totalShift sh) r ∧ (r < -2147483648 ∨ 2147483647 < r) := by
  cases hlegal : legalForSingle m sh with
  | true =>
    obtain ⟨r, hr, hform⟩ := exists_nearestEven_product hlegal x
    rw [hform, checkedNarrow_eq_rangeFailure_iff]
    exact ⟨fun hwide => ⟨rfl, r, hr, hwide⟩, fun ⟨_, q, hq, hwide⟩ => hq.unique hr ▸ hwide⟩
  | false => simp [scaleRteIntent_illegal hlegal]

/-- The literal form's answer is the nearest integer at a legal amount (rules R74, R75). -/
theorem scaleRteLiteral_ok_nearest {x m sh v : Word} (h : scaleRteLiteral x m sh = .ok v) :
    ∃ a : Nat, (a : Int) = sh.toInt ∧ 1 ≤ a ∧ NearestEven (x.toInt * a) a v.toInt := by
  cases hlegal : legalForLiteral m sh with
  | true =>
    obtain ⟨hm, hlow, hhigh⟩ := (legalForLiteral_iff m sh).1 hlegal
    have ha : (sh.toInt.toNat : Int) = sh.toInt := Int.toNat_of_nonneg (by omega)
    obtain ⟨u, hu, hvalue⟩ := scaleRteLiteral_ok hm ha (by omega) (by omega) x
    obtain rfl : u = v := Except.ok.inj (hu.symm.trans h)
    exact ⟨_, ha, by omega, hvalue ▸ nearestEven_evenFormula _ (by omega)⟩
  | false =>
    rw [scaleRteLiteral_illegal hlegal] at h
    cases h

theorem scaleRteLiteral_ne_rangeFailure (x m sh : Word) :
    scaleRteLiteral x m sh ≠ .error .rangeAssertionFailure := by
  cases hlegal : legalForLiteral m sh with
  | true => simp [scaleRteLiteral_legal hlegal]
  | false => simp [scaleRteLiteral_illegal hlegal]

/-- Settles O22: an illegal operand raises, and on legal operands the nearest integer is checked and narrowed. -/
theorem intentFormRoundsTheExactProduct : Obligations.IntentFormRoundsTheExactProduct := by
  unfold Obligations.IntentFormRoundsTheExactProduct
  intro rc x m sh
  refine ⟨fun hillegal => scaleRteIntent_illegal ((legalForSingle_eq_false_iff m sh).2 hillegal) rc x, ?_⟩
  intro hm hlow hhigh t ht
  obtain rfl := totalShift_eq_of_cast ht
  obtain ⟨r, hr, hform⟩ := exists_nearestEven_product ((legalForSingle_iff m sh).2 ⟨hm, hlow, hhigh⟩) x
  refine ⟨r, hr, fun v hv => ?_, fun hwide => ?_⟩
  · rw [hform, checkedNarrow_eq_ok_iff, hv]
  · rw [hform, checkedNarrow_eq_rangeFailure_iff]
    exact hwide

/-- Settles O27: both forms answer the nearest integer, which is odd and non-decreasing in the value, and the value is
so in the accumulator. -/
theorem roundToEvenFormsAreOddAndMonotone : Obligations.RoundToEvenFormsAreOddAndMonotone := by
  unfold Obligations.RoundToEvenFormsAreOddAndMonotone
  intro rc x y m sh a b
  constructor
  · intro ha hb
    obtain ⟨k, hk, -, hanear⟩ := scaleRteLiteral_ok_nearest ha
    obtain ⟨l, hl, -, hbnear⟩ := scaleRteLiteral_ok_nearest hb
    obtain rfl : k = l := by omega
    constructor
    · intro hneg
      rw [hneg, neg_mul] at hbnear
      exact hbnear.unique hanear.neg
    · intro hle
      exact hanear.mono hbnear (mul_le_mul_of_nonneg_right hle (by omega))
  · intro ha hb
    obtain ⟨hlegal, hanear⟩ := (scaleRteIntent_eq_ok_iff rc x m sh a).1 ha
    obtain ⟨-, hbnear⟩ := (scaleRteIntent_eq_ok_iff rc y m sh b).1 hb
    obtain ⟨hm, -⟩ := (legalForSingle_iff m sh).1 hlegal
    constructor
    · intro hneg
      rw [hneg, neg_mul] at hbnear
      exact hbnear.unique hanear.neg
    · intro hle
      exact hanear.mono hbnear (mul_le_mul_of_nonneg_right hle hm)

/-! ### Strategy A rounds half up (rules R64, R66) -/

/-- Strategy A's formula is the floor of `v / 2^a`, plus one exactly when the remainder reaches half the divisor. -/
theorem halfUpFormula_eq (v : Int) {a : Nat} (ha : 1 ≤ a) :
    (v + 2 ^ (a - 1)) / 2 ^ a = v / 2 ^ a + if v % 2 ^ a < 2 ^ (a - 1) then 0 else 1 := by
  have hhalf : (0 : Int) < 2 ^ (a - 1) := by positivity
  rw [two_pow_eq_two_mul_half ha]
  generalize (2 : Int) ^ (a - 1) = half at hhalf ⊢
  obtain ⟨hsplit, hremLow, hremHigh, -⟩ := floor_split v hhalf
  split
  · exact ((Int.ediv_emod_unique (by omega) (r := v % (2 * half) + half)).2 ⟨by linarith, by omega, by omega⟩).1
  · exact ((Int.ediv_emod_unique (by omega) (r := v % (2 * half) - half)).2 ⟨by linarith, by omega, by omega⟩).1

/-- The formula at the negated value: the negated floor, less one exactly when the remainder exceeds half the
divisor. -/
theorem halfUpFormula_neg (v : Int) {a : Nat} (ha : 1 ≤ a) :
    (-v + 2 ^ (a - 1)) / 2 ^ a = -(v / 2 ^ a) - if v % 2 ^ a ≤ 2 ^ (a - 1) then 0 else 1 := by
  have hhalf : (0 : Int) < 2 ^ (a - 1) := by positivity
  rw [two_pow_eq_two_mul_half ha]
  generalize (2 : Int) ^ (a - 1) = half at hhalf ⊢
  obtain ⟨hsplit, hremLow, hremHigh, -⟩ := floor_split v hhalf
  split
  · exact ((Int.ediv_emod_unique (by omega) (r := half - v % (2 * half))).2 ⟨by linarith, by omega, by omega⟩).1
  · exact ((Int.ediv_emod_unique (by omega) (r := 3 * half - v % (2 * half))).2 ⟨by linarith, by omega, by omega⟩).1

/-- Settles O15: the two bounds are those of a floor, and at the negated operand the two formulas differ from an odd
function exactly where the remainder is half the divisor. -/
theorem singleRoundingIsRoundHalfUp : Obligations.SingleRoundingIsRoundHalfUp := by
  unfold Obligations.SingleRoundingIsRoundHalfUp
  intro x m sh hm hlow hhigh t ht
  obtain rfl := totalShift_eq_of_cast ht
  obtain ⟨-, hshift, -⟩ := totalShift_eq ((legalForSingle_iff m sh).2 ⟨hm, hlow, hhigh⟩)
  have hpos : 1 ≤ totalShift sh := by omega
  have hdivisor : (0 : Int) < 2 ^ totalShift sh := by positivity
  have hhalf := two_pow_eq_two_mul_half hpos
  have hfloor := Int.ediv_mul_le (x.toInt * m.toInt + 2 ^ (totalShift sh - 1)) hdivisor.ne'
  have hceil := Int.lt_ediv_add_one_mul_self (x.toInt * m.toInt + 2 ^ (totalShift sh - 1)) hdivisor
  rw [← singleResult64_eq] at hfloor hceil
  refine ⟨by linarith, by linarith, fun y hy => ?_⟩
  rw [singleResult64_eq, singleResult64_eq, hy, neg_mul, halfUpFormula_neg _ hpos, halfUpFormula_eq _ hpos]
  obtain hbelow | htie | habove := lt_trichotomy (x.toInt * m.toInt % 2 ^ totalShift sh) (2 ^ (totalShift sh - 1))
  · rw [if_pos hbelow.le, if_pos hbelow, if_neg hbelow.ne]
    ring
  · rw [if_pos htie.le, if_neg htie.not_lt, if_pos htie]
    ring
  · rw [if_neg habove.not_ge, if_neg habove.le.not_gt, if_neg habove.ne']
    ring

/-- Settles O24: the product is non-decreasing in the accumulator, and so is the floor. -/
theorem scaleSingleIsMonotone : Obligations.ScaleSingleIsMonotone := by
  unfold Obligations.ScaleSingleIsMonotone
  intro rc x y m sh a b hxy ha hb
  obtain ⟨hlegal, ha⟩ := (scaleSingle_eq_ok_iff rc x m sh a).1 ha
  obtain ⟨-, hb⟩ := (scaleSingle_eq_ok_iff rc y m sh b).1 hb
  obtain ⟨hm, -⟩ := (legalForSingle_iff m sh).1 hlegal
  have hproduct : x.toInt * m.toInt ≤ y.toInt * m.toInt := mul_le_mul_of_nonneg_right hxy hm
  rw [ha, hb, singleResult64_eq, singleResult64_eq]
  exact Int.ediv_le_ediv (by positivity) (by omega)

/-- Settles O26: both formulas are the floor or the integer above it, and they part exactly at a tie above an even
floor. -/
theorem intentDiffersFromSingleOnlyAtEvenTies : Obligations.IntentDiffersFromSingleOnlyAtEvenTies := by
  unfold Obligations.IntentDiffersFromSingleOnlyAtEvenTies
  intro rc x m sh a b ha hb t ht
  obtain rfl := totalShift_eq_of_cast ht
  obtain ⟨hlegal, ha⟩ := (scaleSingle_eq_ok_iff rc x m sh a).1 ha
  obtain ⟨-, hshift, -⟩ := totalShift_eq hlegal
  have hpos : 1 ≤ totalShift sh := by omega
  rw [scaleRteIntent_legal hlegal, checkedNarrow_eq_ok_iff] at hb
  rw [ha, hb, singleResult64_eq, halfUpFormula_eq _ hpos, evenFormula_eq _ hpos]
  obtain hbelow | htie | habove := lt_trichotomy (x.toInt * m.toInt % 2 ^ totalShift sh) (2 ^ (totalShift sh - 1))
  · rw [if_pos hbelow, if_pos (by omega), if_neg fun h => hbelow.ne h.1]
    ring
  · obtain heven | hodd := Int.emod_two_eq (x.toInt * m.toInt / 2 ^ totalShift sh)
    · rw [if_neg htie.not_lt, if_pos (by omega), if_pos ⟨htie, heven⟩]
      ring
    · rw [if_neg htie.not_lt, if_neg (by omega), if_neg (by omega)]
      ring
  · rw [if_neg habove.le.not_gt, if_neg (by omega), if_neg fun h => habove.ne' h.1]
    ring

/-! ### Zero (rules R66, R80, R81) -/

theorem scaleSingle_of_product_zero {x m sh : Word} (hlegal : legalForSingle m sh = true)
    (hzero : x.toInt * m.toInt = 0) (rc : RangeCheck) : scaleSingle rc x m sh = .ok 0#32 := by
  obtain ⟨-, hshift, -⟩ := totalShift_eq hlegal
  rw [scaleSingle_eq_ok_iff, singleResult64_eq, hzero, halfUpFormula_eq 0 (by omega)]
  simp [hlegal]

theorem scaleRteIntent_of_product_zero {x m sh : Word} (hlegal : legalForSingle m sh = true)
    (hzero : x.toInt * m.toInt = 0) (rc : RangeCheck) : scaleRteIntent rc x m sh = .ok 0#32 := by
  rw [scaleRteIntent_eq_ok_iff, hzero]
  exact ⟨hlegal, nearestEven_zero _⟩

/-- Settles O25: a zero accumulator or multiplier makes the product zero, which each rounding keeps. -/
theorem zeroGivesZero : Obligations.ZeroGivesZero := by
  unfold Obligations.ZeroGivesZero
  intro rc x m sh hm hlow hhigh
  have hlegal : legalForSingle m sh = true := (legalForSingle_iff m sh).2 ⟨hm, hlow, hhigh⟩
  have hzero : (0#32 : Word).toInt = 0 := BitVec.toInt_zero
  have hlegalZero : legalForSingle 0#32 sh = true := (legalForSingle_iff _ sh).2 ⟨hzero.ge, hlow, hhigh⟩
  have hleft : (0#32 : Word).toInt * m.toInt = 0 := by rw [hzero, zero_mul]
  have hright : x.toInt * (0#32 : Word).toInt = 0 := by rw [hzero, mul_zero]
  refine ⟨scaleSingle_of_product_zero hlegal hleft rc, scaleRteIntent_of_product_zero hlegal hleft rc,
    scaleSingle_of_product_zero hlegalZero hright rc, scaleRteIntent_of_product_zero hlegalZero hright rc, ?_⟩
  intro hpos
  obtain ⟨v, hv, -⟩ := scaleRteLiteral_ok (sh := sh) hm (Int.toNat_of_nonneg (by omega)) (by omega) (by omega) 0#32
  obtain ⟨a, -, -, hnear⟩ := scaleRteLiteral_ok_nearest hv
  rw [hzero, zero_mul] at hnear
  have hvalue : v.toInt = (0#32 : Word).toInt := by rw [hnear.unique (nearestEven_zero a), hzero]
  rw [hv, BitVec.eq_of_toInt_eq hvalue]

end Sys2Proof.Machine
end

