-- ==== Sys2Proof/Proofs/Bounds.lean ====
section
/-! PROOFS. The bounds of the scalers' intermediate values and results (rules R63, R65, R73, R76), and that the 64-bit
datapath therefore computes the integers of the definitions (rules R7, R63, R73). -/

namespace Sys2Proof.Machine

/-! ### The product and Strategy A's result (rule R63) -/

theorem exactProduct_eq (x m : Word) : exactProduct x m = x.toInt * m.toInt := rfl

/-- The product of a word and a non-negative word: the extremes are at the ends of both ranges. -/
theorem exactProduct_bounds (x : Word) {m : Word} (hm : 0 ≤ m.toInt) :
    -4611686016279904256 ≤ exactProduct x m ∧ exactProduct x m ≤ 4611686014132420609 := by
  obtain ⟨hxLow, hxHigh⟩ := toInt_range x
  obtain ⟨-, hmHigh⟩ := toInt_range m
  rw [exactProduct_eq]
  constructor
  · calc (-4611686016279904256 : Int) ≤ -2147483648 * m.toInt := by omega
      _ ≤ x.toInt * m.toInt := mul_le_mul_of_nonneg_right hxLow hm
  · calc x.toInt * m.toInt ≤ 2147483647 * m.toInt := mul_le_mul_of_nonneg_right hxHigh hm
      _ ≤ 4611686014132420609 := by omega

theorem biasedProduct_bounds (x : Word) {m sh : Word} (hlegal : legalForSingle m sh = true) :
    -4611686016271515648 ≤ biasedProduct x m sh ∧ biasedProduct x m sh ≤ 6917529023346114561 := by
  obtain ⟨hm, -, -⟩ := (legalForSingle_iff m sh).1 hlegal
  obtain ⟨hproductLow, hproductHigh⟩ := exactProduct_bounds x hm
  obtain ⟨hconstLow, hconstHigh⟩ := roundConstant_bounds hlegal
  unfold biasedProduct
  omega

/-- Strategy A's result is widest at the smallest total shift, 24. -/
theorem singleResult64_bounds (x : Word) {m sh : Word} (hlegal : legalForSingle m sh = true) :
    -274877906816 ≤ singleResult64 x m sh ∧ singleResult64 x m sh ≤ 274877906688 := by
  obtain ⟨hm, -, -⟩ := (legalForSingle_iff m sh).1 hlegal
  obtain ⟨hproductLow, hproductHigh⟩ := exactProduct_bounds x hm
  obtain ⟨hconstLow, -⟩ := roundConstant_bounds hlegal
  obtain ⟨-, hshift, -⟩ := totalShift_eq hlegal
  have hdivisor := two_pow_eq_two_mul_half (by omega : 1 ≤ totalShift sh)
  rw [roundConstant_eq] at hconstLow
  rw [exactProduct_eq] at hproductLow hproductHigh
  rw [singleResult64_eq, hdivisor]
  generalize (2 : Int) ^ (totalShift sh - 1) = half at hconstLow ⊢
  constructor
  · rw [Int.le_ediv_iff_mul_le (by omega)]
    omega
  · rw [← Int.lt_add_one_iff, Int.ediv_lt_iff_lt_mul (by omega)]
    omega

/-- Settles O16: the bounds of the product, of the round constant, of their sum, and of the result. -/
theorem singleProductNeverOverflows : Obligations.SingleProductNeverOverflows := by
  unfold Obligations.SingleProductNeverOverflows
  intro x m sh hm hlow hhigh
  have hlegal : legalForSingle m sh = true := (legalForSingle_iff m sh).2 ⟨hm, hlow, hhigh⟩
  obtain ⟨hproductLow, hproductHigh⟩ := exactProduct_bounds x hm
  obtain ⟨hconstLow, hconstHigh⟩ := roundConstant_bounds hlegal
  obtain ⟨hbiasedLow, hbiasedHigh⟩ := biasedProduct_bounds x hlegal
  exact ⟨hproductLow, hproductHigh, hconstLow, hconstHigh, hbiasedLow, hbiasedHigh, singleResult64_bounds x hlegal⟩

/-! ### The primitive inside its domain (rule R73) -/

theorem evenSum_eq (v : Int) (a : Nat) : evenSum v a = v + v / 2 ^ a % 2 + (2 ^ (a - 1) - 1) := by
  unfold evenSum evenBit evenBias
  rw [asr_eq, oneShl_eq]

theorem fits64_iff (v : Int) : fits64 v = true ↔ -9223372036854775808 ≤ v ∧ v ≤ 9223372036854775807 := by
  simp [fits64]

theorem roundToEvenDefined_iff (v : Int) (a : Nat) : roundToEvenDefined v a = true ↔
    1 ≤ a ∧ a ≤ 63 ∧ fits64 v = true ∧ fits64 (evenSum v a) = true := by
  simp [roundToEvenDefined, and_assoc]

/-- The biased sum is the value and at most half the divisor more. -/
theorem evenSum_bounds (v : Int) (a : Nat) : v ≤ evenSum v a ∧ evenSum v a ≤ v + 2 ^ (a - 1) := by
  have hhalf : (0 : Int) < 2 ^ (a - 1) := by positivity
  rw [evenSum_eq]
  omega

/-- The literal form's value, at most seven times a word (rule R73). -/
theorem literalAccumulator_bounds (x : Word) {sh : Word} (hlow : 1 ≤ sh.toInt) (hhigh : sh.toInt ≤ 7) :
    -15032385536 ≤ literalAccumulator x sh ∧ literalAccumulator x sh ≤ 15032385529 := by
  obtain ⟨hxLow, hxHigh⟩ := toInt_range x
  unfold literalAccumulator
  constructor
  · calc (-15032385536 : Int) ≤ -2147483648 * sh.toInt := by omega
      _ ≤ x.toInt * sh.toInt := mul_le_mul_of_nonneg_right hxLow (by omega)
  · calc x.toInt * sh.toInt ≤ 2147483647 * sh.toInt := mul_le_mul_of_nonneg_right hxHigh (by omega)
      _ ≤ 15032385529 := by omega

/-- The bias of the literal form is at most 63: half the divisor is monotone in the amount. -/
theorem evenSum_literal_le (x : Word) {sh : Word} (hlow : 1 ≤ sh.toInt) (hhigh : sh.toInt ≤ 7) :
    evenSum (literalAccumulator x sh) sh.toInt.toNat ≤ 15032385593 := by
  obtain ⟨-, hvalueHigh⟩ := literalAccumulator_bounds x hlow hhigh
  obtain ⟨-, hsumHigh⟩ := evenSum_bounds (literalAccumulator x sh) sh.toInt.toNat
  have hhalf : (2 : Int) ^ (sh.toInt.toNat - 1) ≤ 2 ^ 6 := pow_le_pow_right₀ one_le_two (by omega)
  omega

theorem literal_inside_domain (x : Word) {sh : Word} (hlow : 1 ≤ sh.toInt) (hhigh : sh.toInt ≤ 7) :
    roundToEvenDefined (literalAccumulator x sh) sh.toInt.toNat = true := by
  obtain ⟨hvalueLow, hvalueHigh⟩ := literalAccumulator_bounds x hlow hhigh
  obtain ⟨hsumLow, -⟩ := evenSum_bounds (literalAccumulator x sh) sh.toInt.toNat
  have hsumHigh := evenSum_literal_le x hlow hhigh
  rw [roundToEvenDefined_iff, fits64_iff, fits64_iff]
  omega

theorem evenSum_product_bounds (x : Word) {m sh : Word} (hlegal : legalForSingle m sh = true) :
    -4611686016279904256 ≤ evenSum (exactProduct x m) (totalShift sh) ∧
      evenSum (exactProduct x m) (totalShift sh) ≤ 6917529023346114561 := by
  obtain ⟨hm, -, -⟩ := (legalForSingle_iff m sh).1 hlegal
  obtain ⟨hproductLow, hproductHigh⟩ := exactProduct_bounds x hm
  obtain ⟨hsumLow, hsumHigh⟩ := evenSum_bounds (exactProduct x m) (totalShift sh)
  obtain ⟨-, hconstHigh⟩ := roundConstant_bounds hlegal
  rw [roundConstant_eq] at hconstHigh
  omega

theorem product_inside_domain (x : Word) {m sh : Word} (hlegal : legalForSingle m sh = true) :
    roundToEvenDefined (exactProduct x m) (totalShift sh) = true := by
  obtain ⟨hm, -, -⟩ := (legalForSingle_iff m sh).1 hlegal
  obtain ⟨hproductLow, hproductHigh⟩ := exactProduct_bounds x hm
  obtain ⟨hsumLow, hsumHigh⟩ := evenSum_product_bounds x hlegal
  obtain ⟨-, hshiftLow, hshiftHigh⟩ := totalShift_eq hlegal
  rw [roundToEvenDefined_iff, fits64_iff, fits64_iff]
  omega

/-- Settles O19: the bounds of the value and of the biased sum, at both call sites. -/
theorem blockUsesRoundToEvenInsideItsDomain : Obligations.BlockUsesRoundToEvenInsideItsDomain := by
  unfold Obligations.BlockUsesRoundToEvenInsideItsDomain
  intro x m sh hm
  constructor
  · intro hlow hhigh
    obtain ⟨hvalueLow, hvalueHigh⟩ := literalAccumulator_bounds x hlow hhigh
    exact ⟨literal_inside_domain x hlow hhigh, abs_le.2 ⟨hvalueLow, by omega⟩, evenSum_literal_le x hlow hhigh⟩
  · intro hlow hhigh
    have hlegal : legalForSingle m sh = true := (legalForSingle_iff m sh).2 ⟨hm, hlow, hhigh⟩
    exact ⟨product_inside_domain x hlegal, evenSum_product_bounds x hlegal⟩

/-! ### What fits 32 bits (rules R65, R76) -/

/-- Settles O21: the answer is a nearest integer and so within the bounds; the ends are reached at amount 1. -/
theorem literalFormAlwaysFits : Obligations.LiteralFormAlwaysFits := by
  unfold Obligations.LiteralFormAlwaysFits
  intro x m sh
  refine ⟨scaleRteLiteral_ne_rangeFailure x m sh, fun v hv => ?_, fun hm => ?_⟩
  · obtain ⟨a, -, ha, hnear⟩ := scaleRteLiteral_ok_nearest hv
    exact nearestEven_literal_bounds x ha hnear
  · have hlegal : legalForLiteral m 1#32 = true := (legalForLiteral_iff m 1#32).2 ⟨hm, by decide, by decide⟩
    rw [scaleRteLiteral_legal hlegal, scaleRteLiteral_legal hlegal]
    exact ⟨rfl, rfl⟩

/-- With `shift ≤ 0` the divisor is at least `2^31`, and the product is at most `2^31 - 1` times it in size. -/
theorem product_le_divisor (x : Word) {m sh : Word} (hlegal : legalForSingle m sh = true) (hsh : sh.toInt ≤ 0) :
    -2147483647 * (2 : Int) ^ totalShift sh ≤ x.toInt * m.toInt ∧
      x.toInt * m.toInt ≤ 2147483647 * 2 ^ totalShift sh := by
  obtain ⟨hm, -, -⟩ := (legalForSingle_iff m sh).1 hlegal
  obtain ⟨hproductLow, hproductHigh⟩ := exactProduct_bounds x hm
  obtain ⟨hshift, -, -⟩ := totalShift_eq hlegal
  have hdivisor : (2 : Int) ^ 31 ≤ 2 ^ totalShift sh := pow_le_pow_right₀ one_le_two (by omega)
  rw [exactProduct_eq] at hproductLow hproductHigh
  omega

theorem singleResult64_fits {x m sh : Word} (hlegal : legalForSingle m sh = true) (hsh : sh.toInt ≤ 0) :
    -2147483647 ≤ singleResult64 x m sh ∧ singleResult64 x m sh ≤ 2147483647 := by
  obtain ⟨hproductLow, hproductHigh⟩ := product_le_divisor x hlegal hsh
  obtain ⟨-, hshift, -⟩ := totalShift_eq hlegal
  have hhalf : (0 : Int) < 2 ^ (totalShift sh - 1) := by positivity
  have hdivisor := two_pow_eq_two_mul_half (by omega : 1 ≤ totalShift sh)
  rw [hdivisor] at hproductLow hproductHigh
  rw [singleResult64_eq, hdivisor]
  generalize (2 : Int) ^ (totalShift sh - 1) = half at *
  constructor
  · rw [Int.le_ediv_iff_mul_le (by omega)]
    omega
  · rw [← Int.lt_add_one_iff, Int.ediv_lt_iff_lt_mul (by omega)]
    omega

theorem nearestEven_product_fits {x m sh : Word} {r : Int} (hlegal : legalForSingle m sh = true)
    (hsh : sh.toInt ≤ 0) (hr : NearestEven (x.toInt * m.toInt) (totalShift sh) r) :
    -2147483648 ≤ r ∧ r ≤ 2147483647 := by
  obtain ⟨hproductLow, hproductHigh⟩ := product_le_divisor x hlegal hsh
  obtain ⟨hdist, -⟩ := hr
  have hdivisor : (0 : Int) < 2 ^ totalShift sh := by positivity
  generalize (2 : Int) ^ totalShift sh = d at *
  have hlow := neg_abs_le (x.toInt * m.toInt - r * d)
  have hhigh := le_abs_self (x.toInt * m.toInt - r * d)
  constructor
  · exact Int.lt_add_one_iff.1 (lt_of_mul_lt_mul_right (by linarith) hdivisor.le)
  · exact Int.lt_add_one_iff.1 (lt_of_mul_lt_mul_right (by linarith) hdivisor.le)

theorem scaleSingle_ne_rangeFailure {sh : Word} (hsh : sh.toInt ≤ 0) (rc : RangeCheck) (x m : Word) :
    scaleSingle rc x m sh ≠ .error .rangeAssertionFailure := by
  rw [Ne, scaleSingle_eq_rangeFailure_iff]
  rintro ⟨hlegal, hwide⟩
  have := singleResult64_fits (x := x) hlegal hsh
  omega

theorem scaleRteIntent_ne_rangeFailure {sh : Word} (hsh : sh.toInt ≤ 0) (rc : RangeCheck) (x m : Word) :
    scaleRteIntent rc x m sh ≠ .error .rangeAssertionFailure := by
  rw [Ne, scaleRteIntent_eq_rangeFailure_iff]
  rintro ⟨hlegal, r, hr, hwide⟩
  have := nearestEven_product_fits hlegal hsh hr
  omega

/-- Settles O23: the quotient is out of range exactly when the biased product is out of the range times the divisor;
with `shift ≤ 0` both results fit. -/
theorem rangeFailureExactlyWhenTooWide : Obligations.RangeFailureExactlyWhenTooWide := by
  unfold Obligations.RangeFailureExactlyWhenTooWide
  intro rc x m sh hm hlow hhigh t ht
  obtain rfl := totalShift_eq_of_cast ht
  have hlegal : legalForSingle m sh = true := (legalForSingle_iff m sh).2 ⟨hm, hlow, hhigh⟩
  have hdivisor : (0 : Int) < 2 ^ totalShift sh := by positivity
  constructor
  · have habove : 2147483647 < singleResult64 x m sh ↔ (2147483648 : Int) ≤ singleResult64 x m sh := by omega
    rw [scaleSingle_eq_rangeFailure_iff, habove, singleResult64_eq, Int.ediv_lt_iff_lt_mul hdivisor,
      Int.le_ediv_iff_mul_le hdivisor, pow_add]
    norm_num [hlegal]
    omega
  · intro hsh
    obtain ⟨hsingleLow, hsingleHigh⟩ := singleResult64_fits (x := x) hlegal hsh
    obtain ⟨r, hr, hform⟩ := exists_nearestEven_product hlegal x
    have hfits := (fits32_iff r).2 (nearestEven_product_fits hlegal hsh hr)
    have hsingleFits : fits32 (singleResult64 x m sh) = true := (fits32_iff _).2 (by omega)
    refine ⟨⟨narrow32 (singleResult64 x m sh), ?_, ?_⟩, narrow32 r, ?_⟩
    · rw [scaleSingle_legal hlegal, checkedNarrow_fits hsingleFits]
    · rw [narrow32_toInt hsingleFits]
      exact hsingleLow
    · rw [hform, checkedNarrow_fits hfits]

/-! ### The datapath: 64-bit words whose exact value fits do not wrap (rules R5, R7) -/

theorem toInt_add_of_fits {a b : Acc} (h : fits64 (a.toInt + b.toInt) = true) :
    (a + b).toInt = a.toInt + b.toInt := by
  obtain ⟨hlow, hhigh⟩ := (fits64_iff _).1 h
  rw [BitVec.toInt_add]
  exact Int.bmod_eq_of_le (by omega) (by omega)

theorem toInt_mul_of_fits {a b : Acc} (h : fits64 (a.toInt * b.toInt) = true) :
    (a * b).toInt = a.toInt * b.toInt := by
  obtain ⟨hlow, hhigh⟩ := (fits64_iff _).1 h
  rw [BitVec.toInt_mul]
  exact Int.bmod_eq_of_le (by omega) (by omega)

theorem sext64_toInt (v : Word) : (sext64 v).toInt = v.toInt :=
  BitVec.toInt_signExtend_of_le (by decide)

theorem sshiftRight_toInt (v : Acc) (n : Nat) : (v.sshiftRight n).toInt = asr v.toInt n :=
  BitVec.toInt_sshiftRight

theorem oneShl64_toInt {n : Nat} (h : n ≤ 62) : (oneShl64 n).toInt = 2 ^ n := by
  have hpow : 2 ^ n ≤ 2 ^ 62 := Nat.pow_le_pow_right (by decide) h
  have hnat : (oneShl64 n).toNat = 2 ^ n := by
    rw [oneShl64, BitVec.toNat_shiftLeft, BitVec.toNat_ofNat, Nat.shiftLeft_eq]
    omega
  rw [BitVec.toInt_eq_toNat_of_lt (by omega), hnat]
  norm_cast

theorem and_one_toInt (v : Acc) : (v &&& 1#64).toInt = v.toInt % 2 := by
  have hnat : (v &&& 1#64).toNat = v.toNat % 2 := by
    rw [BitVec.toNat_and]
    exact Nat.and_one_is_mod _
  rw [BitVec.toInt_eq_toNat_of_lt (by omega), hnat, BitVec.toInt_eq_toNat_cond]
  split <;> omega

theorem evenBit64_toInt (v : Acc) (a : Nat) : (v.sshiftRight a &&& 1#64).toInt = evenBit v.toInt a := by
  rw [and_one_toInt, sshiftRight_toInt, evenBit]

theorem evenBias64_toInt {a : Nat} (h : a ≤ 63) : (oneShl64 (a - 1) - 1#64).toInt = evenBias a := by
  have hneg : oneShl64 (a - 1) - 1#64 = oneShl64 (a - 1) + BitVec.ofInt 64 (-1) := BitVec.sub_eq_add_neg _ _
  have hminus : (BitVec.ofInt 64 (-1)).toInt = -1 := by decide
  have hshl := oneShl64_toInt (by omega : a - 1 ≤ 62)
  have hlow : (0 : Int) < 2 ^ (a - 1) := by positivity
  have hhigh : (2 : Int) ^ (a - 1) ≤ 2 ^ 62 := pow_le_pow_right₀ one_le_two (by omega)
  have hfits : fits64 ((oneShl64 (a - 1)).toInt + (BitVec.ofInt 64 (-1)).toInt) = true := by
    rw [fits64_iff, hshl, hminus]
    omega
  rw [hneg, toInt_add_of_fits hfits, hshl, hminus, evenBias, oneShl_eq, Int.sub_eq_add_neg]

/-- The value with its bit lies between the value and the biased sum. -/
theorem value_add_evenBit_bounds (v : Int) (a : Nat) : v ≤ v + evenBit v a ∧ v + evenBit v a ≤ evenSum v a := by
  have hhalf : (0 : Int) < 2 ^ (a - 1) := by positivity
  unfold evenSum evenBit evenBias
  rw [oneShl_eq]
  omega

/-- The primitive in 64-bit words is the primitive, inside its domain: neither of its sums wraps. -/
theorem roundToEvenDatapath_toInt {v : Acc} {a : Nat} (h : roundToEvenDefined v.toInt a = true) :
    (roundToEvenDatapath v a).toInt = asr (evenSum v.toInt a) a := by
  obtain ⟨-, hamount, hvalue, hsum⟩ := (roundToEvenDefined_iff _ _).1 h
  have hbetween := value_add_evenBit_bounds v.toInt a
  have hfirstFits : fits64 (v.toInt + evenBit v.toInt a) = true := by
    rw [fits64_iff] at hvalue hsum ⊢
    omega
  have hfirst : (v + (v.sshiftRight a &&& 1#64)).toInt = v.toInt + evenBit v.toInt a := by
    rw [toInt_add_of_fits, evenBit64_toInt]
    rwa [evenBit64_toInt]
  rw [roundToEvenDatapath, sshiftRight_toInt, toInt_add_of_fits, hfirst, evenBias64_toInt hamount, evenSum]
  rwa [hfirst, evenBias64_toInt hamount]

theorem product64_toInt (x : Word) {m : Word} (hm : 0 ≤ m.toInt) :
    (sext64 x * sext64 m).toInt = exactProduct x m := by
  have hbounds := exactProduct_bounds x hm
  rw [exactProduct_eq] at hbounds
  rw [toInt_mul_of_fits (by rw [sext64_toInt, sext64_toInt, fits64_iff]; omega), sext64_toInt, sext64_toInt,
    exactProduct_eq]

theorem literal64_toInt (x : Word) {sh : Word} (hlow : 1 ≤ sh.toInt) (hhigh : sh.toInt ≤ 7) :
    (sext64 x * sext64 sh).toInt = literalAccumulator x sh :=
  product64_toInt x (by omega)

theorem singleResultDatapath_toInt (x : Word) {m sh : Word} (hlegal : legalForSingle m sh = true) :
    (singleResultDatapath x m sh).toInt = singleResult64 x m sh := by
  obtain ⟨hm, -, -⟩ := (legalForSingle_iff m sh).1 hlegal
  obtain ⟨-, -, hshift⟩ := totalShift_eq hlegal
  have hconst : (oneShl64 (totalShift sh - 1)).toInt = roundConstant sh := by
    rw [oneShl64_toInt (by omega), roundConstant_eq]
  have hbiased := biasedProduct_bounds x hlegal
  rw [singleResultDatapath, sshiftRight_toInt, toInt_add_of_fits, product64_toInt x hm, hconst]
  · rfl
  · rw [product64_toInt x hm, hconst, fits64_iff, ← biasedProduct]
    omega

/-- Settles O28: each datapath stays inside 64 bits on legal operands. -/
theorem datapathAgreesWithIntegers : Obligations.DatapathAgreesWithIntegers := by
  unfold Obligations.DatapathAgreesWithIntegers
  intro x m sh hm hlow hhigh
  have hlegal : legalForSingle m sh = true := (legalForSingle_iff m sh).2 ⟨hm, hlow, hhigh⟩
  obtain ⟨-, hshift, -⟩ := totalShift_eq hlegal
  refine ⟨singleResultDatapath_toInt x hlegal, ⟨_, roundToEven_eq _ (by omega), ?_⟩,
    fun hpos => ⟨_, roundToEven_eq _ (by omega), ?_⟩⟩
  · have hdomain := product_inside_domain x hlegal
    rw [← product64_toInt x hm] at hdomain
    rw [intentResultDatapath, roundToEvenDatapath_toInt hdomain, product64_toInt x hm, asr_eq, evenSum_eq]
  · have hdomain := literal_inside_domain x hpos hhigh
    rw [← literal64_toInt x hpos hhigh] at hdomain
    rw [literalResultDatapath, roundToEvenDatapath_toInt hdomain, literal64_toInt x hpos hhigh, asr_eq, evenSum_eq]

end Sys2Proof.Machine
end

