-- ==== Sys2Proof/Proofs/Effects.lean ====
section
/-! PROOFS. What each operation completes with, where it traps, and what it leaves unchanged (rules R62, R67, R79 to
R82, R86 to R92, R95 to R98, R106 to R108, R117, R131, R132): each the one equation for its operation, read off. -/

namespace Sys2Proof.Machine

/-! ### The direct scalers -/

/-- Strategy A's answer under the premises of the completion statements. -/
theorem scaleSingle_ok {x m sh v : Word} {t : Nat} (hm : 0 ≤ m.toInt) (hlow : -31 ≤ sh.toInt) (hhigh : sh.toInt ≤ 7)
    (ht : (t : Int) = 31 - sh.toInt) (hv : v.toInt = (x.toInt * m.toInt + 2 ^ (t - 1)) / 2 ^ t) (rc : RangeCheck) :
    scaleSingle rc x m sh = .ok v := by
  obtain rfl := totalShift_eq_of_cast ht
  rw [scaleSingle_eq_ok_iff, singleResult64_eq]
  exact ⟨(legalForSingle_iff m sh).2 ⟨hm, hlow, hhigh⟩, hv⟩

/-- Settles O29: the operation concludes with Strategy A's answer. -/
theorem scaleSingleCompletes : Obligations.ScaleSingleCompletes := by
  unfold Obligations.ScaleSingleCompletes
  intro x m sh v s t hgood hm hlow hhigh ht hv
  rw [exec_scaleSingle hgood, scaleSingle_ok hm hlow hhigh ht hv, conclude_ok, respondOk_eq]

/-- Settles O30: the operation concludes with the literal form's answer. -/
theorem scaleRteCompletes : Obligations.ScaleRteCompletes := by
  unfold Obligations.ScaleRteCompletes
  intro x m sh s a hgood hm ha hlow hhigh
  obtain ⟨v, hv, hvalue⟩ := scaleRteLiteral_ok hm ha hlow hhigh x
  refine ⟨v, hvalue, ?_⟩
  rw [exec_scaleRte hgood, hv, conclude_ok, respondOk_eq]

/-- Settles O31: the operation concludes with the intent form's answer. -/
theorem scaleRteIntentCompletes : Obligations.ScaleRteIntentCompletes := by
  unfold Obligations.ScaleRteIntentCompletes
  intro x m sh v s t hgood hm hlow hhigh ht hnear
  obtain rfl := totalShift_eq_of_cast ht
  have hlegal : legalForSingle m sh = true := (legalForSingle_iff m sh).2 ⟨hm, hlow, hhigh⟩
  have hok := (scaleRteIntent_eq_ok_iff Config.rangeCheck x m sh v).2 ⟨hlegal, hnear⟩
  rw [exec_scaleRteIntent hgood, hok, conclude_ok, respondOk_eq]

/-- Settles O32: each scaler's exception, concluded by raising it. -/
theorem directScalersTrap : Obligations.DirectScalersTrap := by
  unfold Obligations.DirectScalersTrap
  intro x m sh s hgood
  refine ⟨fun hillegal i hi => ?_, fun hillegal => ?_, fun hm hlow hhigh t r ht hwide => ⟨fun hr => ?_, fun hr => ?_⟩⟩
  · have hfalse := (legalForSingle_eq_false_iff m sh).2 hillegal
    simp only [List.mem_cons, List.not_mem_nil, or_false] at hi
    obtain rfl | rfl := hi
    · rw [exec_scaleSingle hgood, scaleSingle_illegal hfalse, conclude_error, raise_eq]
    · rw [exec_scaleRteIntent hgood, scaleRteIntent_illegal hfalse, conclude_error, raise_eq]
  · have hfalse := (legalForLiteral_eq_false_iff m sh).2 hillegal
    rw [exec_scaleRte hgood, scaleRteLiteral_illegal hfalse, conclude_error, raise_eq]
  · obtain rfl := totalShift_eq_of_cast ht
    rw [hr, ← singleResult64_eq] at hwide
    have hfailure := (scaleSingle_eq_rangeFailure_iff Config.rangeCheck x m sh).2
      ⟨(legalForSingle_iff m sh).2 ⟨hm, hlow, hhigh⟩, hwide⟩
    rw [exec_scaleSingle hgood, hfailure, conclude_error, raise_eq]
  · obtain rfl := totalShift_eq_of_cast ht
    have hfailure := (scaleRteIntent_eq_rangeFailure_iff Config.rangeCheck x m sh).2
      ⟨(legalForSingle_iff m sh).2 ⟨hm, hlow, hhigh⟩, r, hr, hwide⟩
    rw [exec_scaleRteIntent hgood, hfailure, conclude_error, raise_eq]

/-- Settles O50: a direct scaler only concludes, which touches the responses and the latch. -/
theorem directScalersFrame : Obligations.DirectScalersFrame := by
  unfold Obligations.DirectScalersFrame
  intro x m sh s t i hi h
  obtain ⟨hpolicy, hdiag, -⟩ := exec_scaler_independent hi h s.policy s.diag
  obtain ⟨r, hr⟩ := exec_scaler_concludes hi
  obtain rfl : conclude r s = t := by simpa [hr s (exec_next_good h)] using h
  exact ⟨hpolicy, hdiag, exec_cfgMode h, exec_cfgDiag h, exec_inputs h, exec_client h, conclude_lookups r s,
    conclude_events r s, exec_answers h⟩

/-! ### The resolving operations -/

/-- Settles O36: the resolving step, and the code of the policy as the response. -/
theorem resolvePolicyCompletes : Obligations.ResolvePolicyCompletes := by
  unfold Obligations.ResolvePolicyCompletes
  intro s hgood
  rw [exec_resolvePolicy hgood, resolvePolicy_eq, respondOk_eq]
  cases policyInForce s <;> rfl

/-- Settles O37: the resolving step, and the flag as the response. -/
theorem resolveDiagCompletes : Obligations.ResolveDiagCompletes := by
  unfold Obligations.ResolveDiagCompletes
  intro s hgood
  rw [exec_resolveDiag hgood, resolveDiag_eq, respondOk_eq]
  rfl

/-- At most one warning, and only from an unresolved policy (rule R92). -/
theorem policyWarning_cases (s : State) :
    policyWarning s = [] ∨ policyWarning s = [.warning] ∧ s.policy = .unresolved := by
  unfold policyWarning
  split
  · next h => exact .inr ⟨rfl, h.1⟩
  · exact .inl rfl

theorem policyAnswer_ne_zero (p : Policy) : policyAnswer p ≠ 0#32 := by
  cases p <;> decide

/-- Settles O51: each field of the completed operation. -/
theorem resolvingOperationsFrame : Obligations.ResolvingOperationsFrame := by
  unfold Obligations.ResolvingOperationsFrame
  intro s t
  constructor
  · intro h
    rw [exec_resolvePolicy (exec_next_good h), resolvePolicy_eq, respondOk_eq] at h
    cases h
    refine ⟨rfl, rfl, rfl, rfl, rfl, rfl, ?_, fun hp => ⟨policyInForce_of_resolved hp, ?_, ?_⟩,
      policyAnswer (policyInForce s), rfl, policyAnswer_ne_zero _⟩
    · obtain hw | ⟨hw, -⟩ := policyWarning_cases s
      · exact .inl (by rw [hw, List.append_nil])
      · exact .inr (by rw [hw])
    · rw [policyLookup_of_resolved hp, List.append_nil]
    · rw [policyWarning_of_resolved hp, List.append_nil]
  · intro h
    rw [exec_resolveDiag (exec_next_good h), resolveDiag_eq, respondOk_eq] at h
    cases h
    refine ⟨rfl, rfl, rfl, rfl, rfl, rfl, rfl, fun hd => ⟨diagInForce_of_resolved hd, ?_⟩,
      diagAnswer (diagInForce s), rfl⟩
    rw [diagLookup_of_resolved hd, List.append_nil]

/-! ### `APPLY` -/

/-- Settles O38: the one equation for `APPLY` with Strategy A's answer. -/
theorem applyCompletesUnderSingleRounding : Obligations.ApplyCompletesUnderSingleRounding := by
  unfold Obligations.ApplyCompletesUnderSingleRounding
  intro x m sh v s t hgood hp hm hlow hhigh ht hv
  have hok : scaleUnder .singleRounding x m sh = .ok v := scaleSingle_ok hm hlow hhigh ht hv Config.rangeCheck
  rw [exec_eq hgood, hp]
  simp only [outcome, hok, conclude_ok, respondOk_eq, prepared, hookEvents, afterEvents, usesPolicy, usesDiag, hp,
    if_true]

/-- Settles O39: the one equation for `APPLY` with the literal form's answer. -/
theorem applyCompletesUnderRoundToEven : Obligations.ApplyCompletesUnderRoundToEven := by
  unfold Obligations.ApplyCompletesUnderRoundToEven
  intro x m sh s a hgood hp hm ha hlow hhigh
  obtain ⟨v, hv, hvalue⟩ := scaleRteLiteral_ok hm ha hlow hhigh x
  have hok : scaleUnder .roundToEven x m sh = .ok v := hv
  refine ⟨v, hvalue, ?_⟩
  rw [exec_eq hgood, hp]
  simp only [outcome, hok, conclude_ok, respondOk_eq, prepared, hookEvents, afterEvents, usesPolicy, usesDiag, hp,
    if_true]

/-- Settles O40: the one equation for `APPLY` with the scaler's exception. -/
theorem applyTraps : Obligations.ApplyTraps := by
  unfold Obligations.ApplyTraps
  intro x m sh s e hgood hraise
  have hscale : scaleUnder (policyInForce s) x m sh = .error e := by
    cases hp : policyInForce s <;> rw [hp] at hraise <;> exact hraise
  rw [exec_eq hgood]
  simp only [outcome, hscale, conclude_error, raise_eq, prepared, hookEvents, afterEvents, usesPolicy, usesDiag,
    if_true]

/-- `APPLY` answers, and sets the latch, as the scaler selected by the policy in force (rule R96). -/
theorem apply_answers {s : State} (hgood : s.fault = .none) (x m sh : Word) :
    ∃ t, exec (.apply x m sh) s = .next t ∧
      t.responses = s.responses ++ [(s.client, responseOf (scaleUnder (policyInForce s) x m sh))] ∧
      t.fault = faultOf (scaleUnder (policyInForce s) x m sh) :=
  have hexec := exec_eq hgood (.apply x m sh)
  ⟨_, hexec, exec_responses hexec, exec_fault hexec⟩

/-- Settles O48: `APPLY` and the direct scaler conclude with the same outcome. -/
theorem applyAnswersAsTheSelectedScaler : Obligations.ApplyAnswersAsTheSelectedScaler := by
  unfold Obligations.ApplyAnswersAsTheSelectedScaler
  intro x m sh s hgood
  obtain ⟨t, ht, hresponses, hfault⟩ := apply_answers hgood x m sh
  constructor
  · intro hp
    have hforce : policyInForce s = .singleRounding := by rw [policyInForce, hp]
    rw [hforce] at hresponses hfault
    exact ⟨t, _, ht, exec_scaleSingle hgood x m sh, hresponses.trans (conclude_responses _ _).symm,
      hfault.trans (conclude_fault _ hgood).symm⟩
  · intro hp
    have hforce : policyInForce s = .roundToEven := by rw [policyInForce, hp]
    rw [hforce] at hresponses hfault
    exact ⟨t, _, ht, exec_scaleRte hgood x m sh, hresponses.trans (conclude_responses _ _).symm,
      hfault.trans (conclude_fault _ hgood).symm⟩

/-- Legal multipliers are alike to the literal form (rules R75, R132). -/
theorem scaleRteLiteral_multiplier_unused {m m' : Word} (hm : 0 ≤ m.toInt) (hm' : 0 ≤ m'.toInt) (x sh : Word) :
    scaleRteLiteral x m sh = scaleRteLiteral x m' sh := by
  have hsame : legalForLiteral m sh = legalForLiteral m' sh := by
    rw [Bool.eq_iff_iff, legalForLiteral_iff, legalForLiteral_iff]
    tauto
  cases hlegal : legalForLiteral m sh with
  | true => rw [scaleRteLiteral_legal hlegal, scaleRteLiteral_legal (hsame ▸ hlegal)]
  | false => rw [scaleRteLiteral_illegal hlegal, scaleRteLiteral_illegal (hsame ▸ hlegal)]

/-- Settles O49: the literal form does not use a legal multiplier, and its amount 0 or less is illegal. -/
theorem roundToEvenPolicyChangesLegality : Obligations.RoundToEvenPolicyChangesLegality := by
  unfold Obligations.RoundToEvenPolicyChangesLegality
  intro x m sh s hgood hp
  have hforce : policyInForce s = .roundToEven := by rw [policyInForce, hp]
  obtain ⟨t, ht, hresponses, hfault⟩ := apply_answers hgood x m sh
  rw [hforce] at hresponses hfault
  constructor
  · intro m' hm hm'
    obtain ⟨u, hu, hresponses', hfault'⟩ := apply_answers hgood x m' sh
    have hsame : scaleUnder .roundToEven x m sh = scaleUnder .roundToEven x m' sh :=
      scaleRteLiteral_multiplier_unused hm hm' x sh
    rw [hforce] at hresponses' hfault'
    exact ⟨t, u, ht, hu, by rw [hresponses, hresponses', hsame], by rw [hfault, hfault', hsame]⟩
  · intro hsh
    have hraise : scaleUnder .roundToEven x m sh = .error .preconditionViolation :=
      scaleRteLiteral_illegal ((legalForLiteral_eq_false_iff m sh).2 (.inr (.inl (by omega)))) x
    rw [hraise] at hfault
    exact ⟨t, ht, hfault, exec_latched hfault⟩

/-- The hook's events of an `APPLY`: none with the flag off, with it on `BEFORE` and, where the scaler answers, `AFTER`
(rules R97, R98). -/
theorem hookEvents_apply (x m sh : Word) (p : Policy) :
    hookEvents (.apply x m sh) p false = [] ∧
      (hookEvents (.apply x m sh) p true = [.before x m sh] ∨
        ∃ v, hookEvents (.apply x m sh) p true = [.before x m sh, .after v]) := by
  refine ⟨rfl, ?_⟩
  rw [hookEvents, if_pos rfl]
  cases scaleUnder p x m sh with
  | ok v => exact .inr ⟨v, rfl⟩
  | error e => exact .inl rfl

/-- Settles O52: each field of the one equation for `APPLY`. -/
theorem applyFrame : Obligations.ApplyFrame := by
  unfold Obligations.ApplyFrame
  intro x m sh s t h
  have hpolicy : t.policy = .resolved (policyInForce s) := exec_policy h
  have hdiag : t.diag = .resolved (diagInForce s) := exec_diag h
  obtain ⟨hoff, hon⟩ := hookEvents_apply x m sh (policyInForce s)
  refine ⟨exec_cfgMode h, exec_cfgDiag h, exec_inputs h, exec_client h, fun hp => ?_, fun hd => ?_, ?_, ?_,
    ⟨policyLookup s, diagLookup s, exec_lookups h, policyLookup_of_resolved, policyLookup_of_unresolved,
      diagLookup_of_resolved, diagLookup_of_unresolved⟩,
    ⟨policyWarning s, _, exec_events h, policyWarning_cases s, fun hflag => ?_, fun hflag => ?_⟩, exec_answers h⟩
  · rw [hpolicy, policyInForce_of_resolved hp]
  · rw [hdiag, diagInForce_of_resolved hd]
  · simp [hpolicy]
  · simp [hdiag]
  · obtain hflag : diagInForce s = false := by simpa [hdiag] using hflag
    rw [hflag, hoff]
  · obtain hflag : diagInForce s = true := by simpa [hdiag] using hflag
    rw [hflag]
    exact hon

/-! ### Which operations raise `RangeAssertionFailure` (rule R107) -/

/-- Settles O43: each operation raises what its outcome is, and each scaler's outcome is the range failure exactly
where its preconditions hold and its result does not fit. -/
theorem rangeAssertionExactlyWhen : Obligations.RangeAssertionExactlyWhen := by
  unfold Obligations.RangeAssertionExactlyWhen
  intro x m sh s hgood
  have hsingle := (endsWith_scaleSingle hgood x m sh).raises_iff .rangeAssertionFailure
  have hintent := (endsWith_scaleRteIntent hgood x m sh).raises_iff .rangeAssertionFailure
  have happly := (endsWith_apply hgood x m sh).raises_iff .rangeAssertionFailure
  refine ⟨?_, ?_, ?_, ?_, ?_, ?_, ?_, ?_⟩
  · rw [hsingle, scaleSingle_eq_rangeFailure_iff, legalForSingle_iff, and_assoc, and_assoc]
  · rw [hintent, scaleRteIntent_eq_rangeFailure_iff, legalForSingle_iff, and_assoc, and_assoc]
  · intro hp
    rw [happly, hsingle, hp, scaleUnder]
  · intro hp
    rw [happly, hp]
    exact scaleRteLiteral_ne_rangeFailure x m sh
  · intro hsh
    rw [hsingle, hintent]
    exact ⟨scaleSingle_ne_rangeFailure hsh _ x m, scaleRteIntent_ne_rangeFailure hsh _ x m⟩
  · rw [(endsWith_scaleRte hgood x m sh).raises_iff]
    exact scaleRteLiteral_ne_rangeFailure x m sh
  · simp [(endsWith_resolvePolicy hgood).raises_iff]
  · simp [(endsWith_resolveDiag hgood).raises_iff]

/-! ### The warning (rules R92, R108) -/

/-- The values that are warned about (rule R85). -/
theorem classifyMode_warns_iff (a : CfgAnswer) :
    (classifyMode a).2 = true ↔ a ≠ .absent ∧ a ≠ .present [] ∧ a ≠ .present [0x45#8, 0x56#8] := by
  cases a with
  | absent => simp [classifyMode]
  | present bytes =>
    by_cases hempty : bytes = []
    · simp [classifyMode, hempty]
    · by_cases heven : bytes = [0x45#8, 0x56#8] <;> simp [classifyMode, evenValue, hempty, heven]

/-- A value that is warned about selects the default policy (rule R85). -/
theorem classifyMode_of_warns {a : CfgAnswer} (h : (classifyMode a).2 = true) :
    (classifyMode a).1 = .singleRounding := by
  cases a with
  | absent => rfl
  | present bytes =>
    simp only [classifyMode] at h ⊢
    split at h
    · cases h
    · split at h
      · cases h
      · next hempty heven => rw [if_neg hempty, if_neg heven]

/-- Appended events add their own warnings to the count. -/
theorem countWarnings_append (es fs : List Event) :
    ((es ++ fs).filter fun e => e = .warning).length =
      (es.filter fun e => e = .warning).length + (fs.filter fun e => e = .warning).length := by
  rw [List.filter_append, List.length_append]

/-- The hook's events are no warnings. -/
theorem countWarnings_hookEvents (i : Instr) (p : Policy) (on : Bool) :
    ((hookEvents i p on).filter fun e => e = .warning).length = 0 := by
  cases i with
  | apply x m sh =>
    rw [hookEvents]
    cases on with
    | false => rfl
    | true => cases scaleUnder p x m sh <;> rfl
  | _ => rfl

/-- How an operation changes the count of warnings: by one, where it resolves the policy from a value that is warned
about (rule R92). -/
theorem exec_warningCount {i : Instr} {s t : State} (h : exec i s = .next t) :
    warningCount t = warningCount s +
      if usesPolicy i = true ∧ s.policy = .unresolved ∧ (classifyMode s.cfgMode).2 = true then 1 else 0 := by
  unfold warningCount
  rw [exec_events h, countWarnings_append, countWarnings_append, countWarnings_hookEvents]
  unfold policyWarning
  cases usesPolicy i with
  | false => simp
  | true =>
    simp only [if_true, true_and]
    split <;> rfl

theorem usesPolicy_iff (i : Instr) : usesPolicy i = true ↔ i = .resolvePolicy ∨ ∃ x m sh, i = .apply x m sh := by
  cases i <;> simp [usesPolicy]

theorem usesDiag_iff (i : Instr) : usesDiag i = true ↔ i = .resolveDiag ∨ ∃ x m sh, i = .apply x m sh := by
  cases i <;> simp [usesDiag]

/-- An operation finds the policy unresolved and leaves it resolved exactly where it uses it. -/
theorem exec_resolves_policy_iff {i : Instr} {s t : State} (h : exec i s = .next t) :
    s.policy = .unresolved ∧ t.policy ≠ .unresolved ↔ usesPolicy i = true ∧ s.policy = .unresolved := by
  rw [exec_policy h]
  cases usesPolicy i <;> simp

/-- Settles O44: the count of warnings changes exactly where the policy is resolved from a value that is warned about,
and that value selects the default policy. -/
theorem warningExactlyWhenUnrecognised : Obligations.WarningExactlyWhenUnrecognised := by
  unfold Obligations.WarningExactlyWhenUnrecognised
  intro i s t h
  have hcount := exec_warningCount h
  constructor
  · have hresolves := exec_resolves_policy_iff h
    have hwarns := classifyMode_warns_iff s.cfgMode
    rw [hcount]
    exact congrArg _ (if_congr (by tauto) rfl rfl)
  · intro hchanged
    obtain ⟨huses, hp, hwarns⟩ : usesPolicy i = true ∧ s.policy = .unresolved ∧ (classifyMode s.cfgMode).2 = true := by
      by_contra hnot
      rw [if_neg hnot] at hcount
      exact hchanged hcount
    have hforce : policyInForce s = .singleRounding := by rw [policyInForce, hp, classifyMode_of_warns hwarns]
    refine ⟨by rw [exec_policy h, huses, hforce]; rfl, ?_, (usesPolicy_iff i).1 huses⟩
    rintro rfl
    have hgood : s.fault = .none := exec_next_good h
    rw [exec_resolvePolicy hgood, resolvePolicy_eq, respondOk_eq, hforce] at h
    cases h
    exact ⟨hgood, rfl⟩

/-! ### Noninterference (rules R117, R131) -/

/-- Settles O46: with both registers resolved nothing of the operation depends on the configuration. -/
theorem laterConfigurationIsUnseen : Obligations.LaterConfigurationIsUnseen := by
  unfold Obligations.LaterConfigurationIsUnseen
  intro i s t p on a b hp hd h
  obtain ⟨hgood, rfl⟩ := exec_next h
  have hgood' : ({ s with cfgMode := a, cfgDiag := b } : State).fault = .none := hgood
  have hconclude : ∀ r (u : State), conclude r { u with cfgMode := a, cfgDiag := b } =
      { conclude r u with cfgMode := a, cfgDiag := b } := fun r _ => by cases r <;> rfl
  have hprepared : prepared i { s with cfgMode := a, cfgDiag := b } =
      { prepared i s with cfgMode := a, cfgDiag := b } := by
    simp [prepared, policyInForce, diagInForce, policyLookup, diagLookup, policyWarning, hp, hd]
  constructor
  · rw [exec_eq hgood', hprepared, hconclude]
    simp [policyInForce, diagInForce, hp, hd]
  · simp [policyLookup, diagLookup, hp, hd]

/-- Only `RESOLVE_DIAG` answers by the flag (rules R90, R117). -/
theorem outcome_flag_unused {i : Instr} (hi : i ≠ .resolveDiag) (p : Policy) (on on' : Bool) :
    outcome i p on = outcome i p on' := by
  cases i with
  | resolveDiag => exact absurd rfl hi
  | _ => rfl

/-- Settles O47: the flag enters the outcome of no operation but `RESOLVE_DIAG`, and the policy is resolved without
it. -/
theorem diagnosticsNeverAlterResults : Obligations.DiagnosticsNeverAlterResults := by
  unfold Obligations.DiagnosticsNeverAlterResults
  intro i s t d a hi h
  have hgood : s.fault = .none := exec_next_good h
  obtain ⟨u, hu⟩ : ∃ u, exec i { s with diag := d, cfgDiag := a } = .next u :=
    ⟨_, exec_eq (s := { s with diag := d, cfgDiag := a }) hgood i⟩
  refine ⟨u, hu, ?_, ?_, ?_⟩
  · rw [exec_responses hu, exec_responses h, outcome_flag_unused hi _ _ (diagInForce s)]
    rfl
  · rw [exec_policy hu, exec_policy h]
    rfl
  · rw [exec_fault hu, exec_fault h, outcome_flag_unused hi _ _ (diagInForce s)]
    rfl

end Sys2Proof.Machine
end

