-- ==== Sys2Proof/Proofs/Runs.lean ====
section
/-! PROOFS. Steps and runs (rules R19 to R26, R31, R32, R34, R39, R41, R86, R89, R92, R97, R111, R125, R135): what a
transition does to each register and its history, the invariant, and the claims about runs, each by one induction. -/

namespace Sys2Proof.Machine

/-! ### The answers of one key -/

/-- The answers that the lookups of a key found, oldest first. -/
def answersOf (k : CfgKey) (ls : List (CfgKey × CfgAnswer)) : List CfgAnswer :=
  (ls.filter fun l => l.1 = k).map Prod.snd

theorem lastAnswer_eq (k : CfgKey) (ls : List (CfgKey × CfgAnswer)) :
    lastAnswer k ls = (answersOf k ls).getLast? := rfl

theorem lookupCount_eq (k : CfgKey) (s : State) : lookupCount k s = (answersOf k s.lookups).length := by
  rw [lookupCount, answersOf, List.length_map]

theorem warnedLookups_eq (s : State) :
    warnedLookups s = ((answersOf .roundingMode s.lookups).filter fun a => (classifyMode a).2).length := by
  rw [warnedLookups, answersOf, List.filter_map, List.length_map, List.filter_filter]
  simp only [Function.comp_def, Bool.and_comm]

@[simp] theorem answersOf_append (k : CfgKey) (ls ls' : List (CfgKey × CfgAnswer)) :
    answersOf k (ls ++ ls') = answersOf k ls ++ answersOf k ls' := by
  simp [answersOf]

@[simp] theorem answersOf_nil (k : CfgKey) : answersOf k [] = [] := rfl

@[simp] theorem answersOf_diagLookup (s : State) : answersOf .roundingMode (diagLookup s) = [] := by
  unfold diagLookup
  split <;> rfl

@[simp] theorem answersOf_policyLookup (s : State) : answersOf .diagnosticsEnable (policyLookup s) = [] := by
  unfold policyLookup
  split <;> rfl

/-! ### What a transition does to a memoized register -/

/-- `REG.POLICY` keeps its value and its key is not looked up, or it is resolved by one lookup, which alone may warn
(rules R86, R92). -/
def PolicyEffect (s t : State) : Prop :=
  (t.policy = s.policy ∧ answersOf .roundingMode t.lookups = answersOf .roundingMode s.lookups ∧
    warningCount t = warningCount s) ∨
  (s.policy = .unresolved ∧ t.policy = .resolved (classifyMode s.cfgMode).1 ∧
    answersOf .roundingMode t.lookups = answersOf .roundingMode s.lookups ++ [s.cfgMode] ∧
    warningCount t = warningCount s + if (classifyMode s.cfgMode).2 = true then 1 else 0)

/-- `REG.DIAG` keeps its value and its key is not looked up, or it is resolved by one lookup (rule R89). -/
def DiagEffect (s t : State) : Prop :=
  (t.diag = s.diag ∧ answersOf .diagnosticsEnable t.lookups = answersOf .diagnosticsEnable s.lookups) ∨
  (s.diag = .unresolved ∧ t.diag = .resolved (classifyDiag s.cfgDiag) ∧
    answersOf .diagnosticsEnable t.lookups = answersOf .diagnosticsEnable s.lookups ++ [s.cfgDiag])

theorem exec_policyEffect {i : Instr} {s t : State} (h : exec i s = .next t) : PolicyEffect s t := by
  have hpolicy := exec_policy h
  have hcount := exec_warningCount h
  have hanswers : answersOf .roundingMode t.lookups = answersOf .roundingMode s.lookups ++
      if usesPolicy i then answersOf .roundingMode (policyLookup s) else [] := by
    rw [exec_lookups h]
    cases usesPolicy i <;> cases usesDiag i <;> simp
  cases huses : usesPolicy i with
  | false =>
    exact .inl ⟨by simpa [huses] using hpolicy, by simpa [huses] using hanswers, by simpa [huses] using hcount⟩
  | true =>
    rw [huses, if_pos rfl] at hpolicy hanswers
    by_cases hp : s.policy = .unresolved
    · refine .inr ⟨hp, ?_, ?_, ?_⟩
      · rw [hpolicy, policyInForce, hp]
      · rw [hanswers, policyLookup_of_unresolved hp]
        rfl
      · simpa [huses, hp] using hcount
    · refine .inl ⟨?_, ?_, ?_⟩
      · rw [hpolicy, policyInForce_of_resolved hp]
      · rw [hanswers, policyLookup_of_resolved hp, answersOf_nil, List.append_nil]
      · simpa [hp] using hcount

theorem exec_diagEffect {i : Instr} {s t : State} (h : exec i s = .next t) : DiagEffect s t := by
  have hdiag := exec_diag h
  have hanswers : answersOf .diagnosticsEnable t.lookups = answersOf .diagnosticsEnable s.lookups ++
      if usesDiag i then answersOf .diagnosticsEnable (diagLookup s) else [] := by
    rw [exec_lookups h]
    cases usesPolicy i <;> cases usesDiag i <;> simp
  cases huses : usesDiag i with
  | false => exact .inl ⟨by simpa [huses] using hdiag, by simpa [huses] using hanswers⟩
  | true =>
    rw [huses, if_pos rfl] at hdiag hanswers
    by_cases hd : s.diag = .unresolved
    · refine .inr ⟨hd, ?_, ?_⟩
      · rw [hdiag, diagInForce, hd]
      · rw [hanswers, diagLookup_of_unresolved hd]
        rfl
    · refine .inl ⟨?_, ?_⟩
      · rw [hdiag, diagInForce_of_resolved hd]
      · rw [hanswers, diagLookup_of_resolved hd, answersOf_nil, List.append_nil]

/-! ### The hook's events come in pairs (rule R97) -/

theorem hooksPaired_before {x m sh : Word} {es : List Event} (h : hooksPaired es = true) :
    hooksPaired (.before x m sh :: es) = true := by
  match es with
  | [] => rfl
  | .before .. :: _ => exact h
  | .warning :: _ => exact h
  | .after _ :: _ => cases h

theorem hooksPaired_append {es fs : List Event} (hes : hooksPaired es = true) (hfs : hooksPaired fs = true) :
    hooksPaired (es ++ fs) = true := by
  induction es using hooksPaired.induct with
  | case1 => exact hfs
  | case2 x m sh r es ih => exact ih hes
  | case3 x m sh es hes' ih => exact hooksPaired_before (ih (by simpa [hooksPaired, hes'] using hes))
  | case4 es ih => exact ih hes
  | case5 r es => cases hes

theorem hooksPaired_policyWarning (s : State) : hooksPaired (policyWarning s) = true := by
  obtain h | ⟨h, -⟩ := policyWarning_cases s <;> rw [h] <;> rfl

theorem hooksPaired_hookEvents (i : Instr) (p : Policy) (on : Bool) : hooksPaired (hookEvents i p on) = true := by
  cases i with
  | apply x m sh =>
    obtain ⟨hoff, hon⟩ := hookEvents_apply x m sh p
    cases on with
    | false => rw [hoff]; rfl
    | true => obtain h | ⟨v, h⟩ := hon <;> rw [h] <;> rfl
  | _ => rfl

/-! ### The invariant -/

/-- Settles O54: the histories are empty, the registers unresolved, and requester 0 exists. -/
theorem resetMeetsTheInvariant : Obligations.ResetMeetsTheInvariant where
  policy_from_lookup := nofun
  diag_from_lookup := nofun
  warnings_from_lookups := rfl
  hooks_paired := rfl
  fault_answered := nofun
  requesters_exist := nofun
  answered_exist := nofun
  client_exists := Nat.succ_pos _

/-- Taking an input keeps the invariant. -/
theorem Inv.setInputs {s : State} {i : Input} {rest : List Input} (hinv : Inv s) (hs : s.inputs = i :: rest) :
    Inv (s.setInputs rest) :=
  { hinv with requesters_exist := fun j hj => hinv.requesters_exist j (hs ▸ List.mem_cons_of_mem i hj) }

theorem Inv.setCfg {s : State} (hinv : Inv s) (k : CfgKey) (a : CfgAnswer) : Inv (s.setCfg k a) := by
  cases k <;> exact { hinv with }

theorem Inv.hostReset {s : State} (hinv : Inv s) : Inv (hostReset s) :=
  { hinv with policy_from_lookup := nofun, diag_from_lookup := nofun, fault_answered := nofun }

theorem Inv.setClient {s : State} {r : Nat} (hinv : Inv s) (hr : r < Config.nReq) : Inv (s.setClient r) :=
  { hinv with client_exists := hr }

/-- A register that a transition leaves resolved is what the last lookup of its key said. -/
theorem PolicyEffect.policy_from_lookup {s t : State} (h : PolicyEffect s t) (hinv : Inv s) :
    ∀ p, t.policy = .resolved p →
      (lastAnswer .roundingMode t.lookups).map (fun a => (classifyMode a).1) = some p := by
  intro p hp
  obtain ⟨hpolicy, hanswers, -⟩ | ⟨-, hpolicy, hanswers, -⟩ := h
  · rw [lastAnswer_eq, hanswers]
    exact hinv.policy_from_lookup p (hpolicy ▸ hp)
  · obtain rfl : (classifyMode s.cfgMode).1 = p := by simpa [hpolicy] using hp
    rw [lastAnswer_eq, hanswers, List.getLast?_concat]
    rfl

theorem DiagEffect.diag_from_lookup {s t : State} (h : DiagEffect s t) (hinv : Inv s) :
    ∀ on, t.diag = .resolved on → (lastAnswer .diagnosticsEnable t.lookups).map classifyDiag = some on := by
  intro on hon
  obtain ⟨hdiag, hanswers⟩ | ⟨-, hdiag, hanswers⟩ := h
  · rw [lastAnswer_eq, hanswers]
    exact hinv.diag_from_lookup on (hdiag ▸ hon)
  · obtain rfl : classifyDiag s.cfgDiag = on := by simpa [hdiag] using hon
    rw [lastAnswer_eq, hanswers, List.getLast?_concat]
    rfl

theorem PolicyEffect.warnings_from_lookups {s t : State} (h : PolicyEffect s t) (hinv : Inv s) :
    warningCount t = warnedLookups t := by
  have hsame := hinv.warnings_from_lookups
  rw [warnedLookups_eq] at hsame ⊢
  obtain ⟨-, hanswers, hcount⟩ | ⟨-, -, hanswers, hcount⟩ := h
  · rw [hanswers, hcount, hsame]
  · rw [hanswers, hcount, hsame, List.filter_append, List.length_append, List.filter_singleton]
    cases (classifyMode s.cfgMode).2 <;> rfl

/-- Every operation keeps the invariant. -/
theorem Inv.exec {i : Instr} {s t : State} (hinv : Inv s) (h : exec i s = .next t) : Inv t where
  policy_from_lookup := (exec_policyEffect h).policy_from_lookup hinv
  diag_from_lookup := (exec_diagEffect h).diag_from_lookup hinv
  warnings_from_lookups := (exec_policyEffect h).warnings_from_lookups hinv
  hooks_paired := by
    rw [exec_events h]
    refine hooksPaired_append (hooksPaired_append hinv.hooks_paired ?_) (hooksPaired_hookEvents ..)
    split
    · exact hooksPaired_policyWarning s
    · rfl
  fault_answered := by
    intro e he
    obtain ⟨v, -, hfault⟩ | ⟨e', hresponses, hfault⟩ := exec_answers h
    · rw [hfault, exec_next_good h] at he
      cases he
    · obtain rfl : e' = e := by simpa [hfault] using he
      rw [hresponses, List.getLast?_concat]
      rfl
  requesters_exist := by
    rw [exec_inputs h]
    exact hinv.requesters_exist
  answered_exist := by
    rw [exec_responses h]
    intro p hp
    obtain hp | hp := List.mem_append.1 hp
    · exact hinv.answered_exist p hp
    · rw [List.mem_singleton.1 hp]
      exact hinv.client_exists
  client_exists := by
    rw [exec_client h]
    exact hinv.client_exists

/-- Settles O53: each of the four things a step can do keeps the invariant. -/
theorem everyStepKeepsTheInvariant : Obligations.EveryStepKeepsTheInvariant := by
  unfold Obligations.EveryStepKeepsTheInvariant
  intro s t hinv h
  obtain ⟨-, -, rfl⟩ | ⟨k, a, rest, hs, rfl⟩ | ⟨rest, hs, rfl⟩ | ⟨r, w, rest, i, hs, -, -, hexec⟩ := step_cases h
  · exact hinv
  · exact (hinv.setInputs hs).setCfg k a
  · exact (hinv.setInputs hs).hostReset
  · have hr : r < Config.nReq := hinv.requesters_exist (.request r w) (by simp [hs]) r rfl
    have haccepted : Inv (accept r rest s) := (hinv.setInputs hs).setClient hr
    exact haccepted.exec hexec

/-! ### Runs -/

theorem run_zero {s t : State} (h : Host.Core.run core 0 s = .next t) : t = s := by
  cases h
  rfl

/-- A run of one step more, of any machine, is a step and then the run. -/
theorem coreRun_succ (M : Host.Core) {n : Nat} {s t : M.State} (h : M.run (n + 1) s = .next t) :
    ∃ u, M.step s = .next u ∧ M.run n u = .next t := by
  unfold Host.Core.run at h
  split at h
  · next u hstep => exact ⟨u, hstep, h⟩
  · cases h
  · cases h

theorem run_succ {n : Nat} {s t : State} (h : Host.Core.run core (n + 1) s = .next t) :
    ∃ u, step s = .next u ∧ Host.Core.run core n u = .next t :=
  coreRun_succ core h

/-- A step takes the first input, if there is one (rule R39). -/
theorem step_inputs {s t : State} (h : step s = .next t) : t.inputs = s.inputs.drop 1 := by
  obtain ⟨hs, -, rfl⟩ | ⟨k, a, rest, hs, rfl⟩ | ⟨rest, hs, rfl⟩ | ⟨r, w, rest, i, hs, -, -, hexec⟩ := step_cases h
  · rw [hs]; rfl
  · rw [hs, State.setCfg_inputs]; rfl
  · rw [hs]; rfl
  · rw [hs, exec_inputs hexec]; rfl

theorem NoReset.step {s t : State} (hnone : NoReset s) (h : step s = .next t) : NoReset t := by
  unfold NoReset
  rw [step_inputs h]
  exact fun hmem => hnone (List.mem_of_mem_drop hmem)

/-! ### A lifetime: until the next reset (rules R20, R22, R26, R32, R41, R92) -/

/-- What a step without a reset does to the two memoized registers. -/
theorem step_effects {s t : State} (hnone : NoReset s) (h : step s = .next t) : PolicyEffect s t ∧ DiagEffect s t := by
  obtain ⟨-, -, rfl⟩ | ⟨k, a, rest, -, rfl⟩ | ⟨rest, hs, rfl⟩ | ⟨r, w, rest, i, -, -, -, hexec⟩ := step_cases h
  · exact ⟨.inl ⟨rfl, rfl, rfl⟩, .inl ⟨rfl, rfl⟩⟩
  · cases k <;> exact ⟨.inl ⟨rfl, rfl, rfl⟩, .inl ⟨rfl, rfl⟩⟩
  · exact absurd (by simp [hs] : Input.reset ∈ s.inputs) hnone
  · have hpolicy := exec_policyEffect hexec
    have hdiag := exec_diagEffect hexec
    exact ⟨hpolicy, hdiag⟩

/-- What any number of steps without a reset do: a resolved register is kept, its key is looked up once and only to
resolve it, and at most that lookup is warned about. -/
structure LifetimeEffect (s t : State) : Prop where
  policy_kept : s.policy ≠ .unresolved → t.policy = s.policy
  diag_kept : s.diag ≠ .unresolved → t.diag = s.diag
  mode_lookups : lookupCount .roundingMode t = lookupCount .roundingMode s +
    if s.policy = .unresolved ∧ t.policy ≠ .unresolved then 1 else 0
  diag_lookups : lookupCount .diagnosticsEnable t = lookupCount .diagnosticsEnable s +
    if s.diag = .unresolved ∧ t.diag ≠ .unresolved then 1 else 0
  warnings_grow : warningCount s ≤ warningCount t
  warnings_bound : warningCount t ≤ warningCount s + if s.policy = .unresolved ∧ t.policy ≠ .unresolved then 1 else 0

theorem LifetimeEffect.refl (s : State) : LifetimeEffect s s where
  policy_kept _ := rfl
  diag_kept _ := rfl
  mode_lookups := by simp
  diag_lookups := by simp
  warnings_grow := le_rfl
  warnings_bound := Nat.le_add_right _ _

theorem LifetimeEffect.of_effects {s t : State} (hpolicy : PolicyEffect s t) (hdiag : DiagEffect s t) :
    LifetimeEffect s t where
  policy_kept hp := by
    obtain ⟨hkept, -⟩ | ⟨hunresolved, -⟩ := hpolicy
    · exact hkept
    · exact absurd hunresolved hp
  diag_kept hd := by
    obtain ⟨hkept, -⟩ | ⟨hunresolved, -⟩ := hdiag
    · exact hkept
    · exact absurd hunresolved hd
  mode_lookups := by
    rw [lookupCount_eq, lookupCount_eq]
    obtain ⟨hkept, hanswers, -⟩ | ⟨hunresolved, hresolved, hanswers, -⟩ := hpolicy
    · simp [hkept, hanswers]
    · simp [hunresolved, hresolved, hanswers]
  diag_lookups := by
    rw [lookupCount_eq, lookupCount_eq]
    obtain ⟨hkept, hanswers⟩ | ⟨hunresolved, hresolved, hanswers⟩ := hdiag
    · simp [hkept, hanswers]
    · simp [hunresolved, hresolved, hanswers]
  warnings_grow := by
    obtain ⟨-, -, hcount⟩ | ⟨-, -, -, hcount⟩ := hpolicy <;> omega
  warnings_bound := by
    obtain ⟨-, -, hcount⟩ | ⟨hunresolved, hresolved, -, hcount⟩ := hpolicy
    · omega
    · rw [hcount, hunresolved, hresolved]
      split <;> simp

/-- Along two transitions that keep a value other than `c`, the value leaves `c` in at most one of them. -/
theorem resolved_once {R : Type} [DecidableEq R] {a b c d : R} (hab : a ≠ c → b = a) (hbd : b ≠ c → d = b) :
    ((if a = c ∧ b ≠ c then 1 else 0) + if b = c ∧ d ≠ c then 1 else 0) = if a = c ∧ d ≠ c then 1 else 0 := by
  by_cases ha : a = c
  · by_cases hb : b = c
    · simp [ha, hb]
    · simp [ha, hb, hbd hb]
  · simp [ha, hab ha]

theorem LifetimeEffect.trans {s u t : State} (hsu : LifetimeEffect s u) (hut : LifetimeEffect u t) :
    LifetimeEffect s t where
  policy_kept hp := by
    have hu := hsu.policy_kept hp
    rw [hut.policy_kept (hu ▸ hp), hu]
  diag_kept hd := by
    have hu := hsu.diag_kept hd
    rw [hut.diag_kept (hu ▸ hd), hu]
  mode_lookups := by
    have honce := resolved_once hsu.policy_kept hut.policy_kept
    rw [hut.mode_lookups, hsu.mode_lookups, Nat.add_assoc, honce]
  diag_lookups := by
    have honce := resolved_once hsu.diag_kept hut.diag_kept
    rw [hut.diag_lookups, hsu.diag_lookups, Nat.add_assoc, honce]
  warnings_grow := hsu.warnings_grow.trans hut.warnings_grow
  warnings_bound := by
    have honce := resolved_once hsu.policy_kept hut.policy_kept
    rw [← honce, ← Nat.add_assoc]
    exact hut.warnings_bound.trans (Nat.add_le_add_right hsu.warnings_bound _)

theorem run_lifetimeEffect {n : Nat} {s t : State} (hnone : NoReset s) (h : Host.Core.run core n s = .next t) :
    LifetimeEffect s t := by
  induction n generalizing s with
  | zero => exact run_zero h ▸ .refl s
  | succ n ih =>
    obtain ⟨u, hstep, hrun⟩ := run_succ h
    obtain ⟨hpolicy, hdiag⟩ := step_effects hnone hstep
    exact (LifetimeEffect.of_effects hpolicy hdiag).trans (ih (hnone.step hstep) hrun)

/-- Settles O55: the registers' part of what a run does in one lifetime. -/
theorem resolvedRegistersKeepTheirValue : Obligations.ResolvedRegistersKeepTheirValue := fun _ _ _ hnone h =>
  ⟨(run_lifetimeEffect hnone h).policy_kept, (run_lifetimeEffect hnone h).diag_kept⟩

/-- Settles O56: the lookups' and the warnings' part. -/
theorem oneLookupPerKeyAndOneWarningPerLifetime : Obligations.OneLookupPerKeyAndOneWarningPerLifetime := by
  unfold Obligations.OneLookupPerKeyAndOneWarningPerLifetime
  intro n s t hnone h
  have heffect := run_lifetimeEffect hnone h
  refine ⟨heffect.mode_lookups, heffect.diag_lookups, heffect.warnings_grow, heffect.warnings_bound.trans ?_⟩
  by_cases hp : s.policy = .unresolved
  · rw [if_pos hp]
    split <;> omega
  · rw [if_neg hp, if_neg fun ⟨hp', _⟩ => hp hp']

/-! ### The stopped block (rules R26, R111) -/

/-- A step of a stopped block without a reset is the host's change of a setting. -/
theorem step_of_latched {s t : State} {e : Exception} (hfault : s.fault = .cause e) (hnone : NoReset s)
    (h : step s = .next t) : ∃ k a rest, s.inputs = .setCfg k a :: rest ∧ t = (s.setInputs rest).setCfg k a := by
  obtain ⟨-, hgood, -⟩ | hset | ⟨rest, hs, -⟩ | ⟨r, w, rest, i, -, -, hgood, -⟩ := step_cases h
  · rw [hfault] at hgood
    cases hgood
  · exact hset
  · exact absurd (by simp [hs] : Input.reset ∈ s.inputs) hnone
  · rw [hfault] at hgood
    cases hgood

/-- Settles O57: by induction on the steps, each of which is a change of a setting. -/
theorem setLatchFreezesTheBlock : Obligations.SetLatchFreezesTheBlock := by
  unfold Obligations.SetLatchFreezesTheBlock
  intro n s t e hfault hnone h
  induction n generalizing s with
  | zero =>
    obtain rfl := run_zero h
    exact ⟨rfl, rfl, rfl, rfl, rfl, rfl, Nat.zero_le _, by simp⟩
  | succ n ih =>
    obtain ⟨u, hstep, hrun⟩ := run_succ h
    have hnone' := hnone.step hstep
    obtain ⟨k, a, rest, hs, rfl⟩ := step_of_latched hfault hnone hstep
    obtain ⟨hf, hp, hd, hl, hev, hr, hn, hall⟩ := ih _ (by simpa using hfault) hnone' hrun
    simp only [State.setCfg_fault, State.setCfg_policy, State.setCfg_diag, State.setCfg_lookups, State.setCfg_events,
      State.setCfg_responses, State.setCfg_inputs, State.setInputs_inputs] at hf hp hd hl hev hr hn hall
    refine ⟨hf, hp, hd, hl, hev, hr, ?_, ?_⟩
    · rw [hs, List.length_cons]
      omega
    · rw [hs, List.take_succ_cons]
      exact List.forall_mem_cons.2 ⟨⟨k, a, rfl⟩, hall⟩

/-! ### Requests and answers (rules R31, R34, R39) -/

/-- What one step adds to the histories: the answer to the request it takes, if it takes one. -/
theorem step_histories {s t : State} (h : step s = .next t) :
    t.responses.map Prod.fst = s.responses.map Prod.fst ++ (s.inputs.take 1).filterMap Input.requester? ∧
      s.responses <+: t.responses ∧ s.events <+: t.events ∧ s.lookups <+: t.lookups := by
  obtain ⟨hs, -, rfl⟩ | ⟨k, a, rest, hs, rfl⟩ | ⟨rest, hs, rfl⟩ | ⟨r, w, rest, i, hs, -, -, hexec⟩ := step_cases h
  · simp [hs]
  · simp [hs, Input.requester?]
  · simp [hs, Input.requester?, hostReset]
  · rw [exec_responses hexec, exec_events hexec, exec_lookups hexec, hs]
    refine ⟨by simp [Input.requester?], List.prefix_append _ _, ?_, ?_⟩
    · rw [List.append_assoc]
      exact List.prefix_append _ _
    · rw [List.append_assoc]
      exact List.prefix_append _ _

/-- Settles O58: by induction on the steps, each of which takes the first input and answers it if it is a request. -/
theorem everyRequestAnsweredOnceInOrder : Obligations.EveryRequestAnsweredOnceInOrder := by
  unfold Obligations.EveryRequestAnsweredOnceInOrder
  intro n s t h
  induction n generalizing s with
  | zero =>
    obtain rfl := run_zero h
    simp
  | succ n ih =>
    obtain ⟨u, hstep, hrun⟩ := run_succ h
    obtain ⟨hanswered, hresponses, hevents, hlookups⟩ := step_histories hstep
    obtain ⟨hinputs, hanswered', hresponses', hevents', hlookups'⟩ := ih u hrun
    rw [step_inputs hstep] at hinputs hanswered'
    refine ⟨?_, ?_, hresponses.trans hresponses', hevents.trans hevents', hlookups.trans hlookups'⟩
    · rw [hinputs, List.drop_drop, Nat.add_comm]
    · rw [hanswered', hanswered, List.append_assoc, ← List.filterMap_append, ← List.take_add, Nat.add_comm]

/-- Settles O59: the step runs the decoded request, which an unfaulted block answers; each operation has its encoding
as such a word. -/
theorem unfaultedBlockAnswersAtOnce : Obligations.UnfaultedBlockAnswersAtOnce := by
  unfold Obligations.UnfaultedBlockAnswersAtOnce
  intro i s r rest hgood
  refine ⟨fun w hw hs => ?_, encode i, decode_encode i⟩
  have hexec := exec_eq (s := { s with inputs := rest, client := r }) hgood i
  refine ⟨_, responseOf (outcome i (policyInForce s) (diagInForce s)), (step_request hs hw).trans hexec,
    exec_inputs hexec, exec_responses hexec, ?_⟩
  rw [exec_fault hexec]
  show faultOf (outcome i (policyInForce s) (diagInForce s)) = .none ↔ _
  cases outcome i (policyInForce s) (diagInForce s) <;> simp [faultOf, responseOf]

/-! ### Who writes a register (rules R19 to R23) -/

/-- An operation that changes `REG.POLICY` found it unresolved and uses it. -/
theorem exec_changes_policy {i : Instr} {s t : State} (h : exec i s = .next t) (hchanged : t.policy ≠ s.policy) :
    s.policy = .unresolved ∧ usesPolicy i = true := by
  rw [exec_policy h] at hchanged
  cases huses : usesPolicy i with
  | false => simp [huses] at hchanged
  | true =>
    by_contra hnot
    have hp : s.policy ≠ .unresolved := fun hp => hnot ⟨hp, rfl⟩
    rw [huses, if_pos rfl, policyInForce_of_resolved hp] at hchanged
    exact hchanged rfl

theorem exec_changes_diag {i : Instr} {s t : State} (h : exec i s = .next t) (hchanged : t.diag ≠ s.diag) :
    s.diag = .unresolved ∧ usesDiag i = true := by
  rw [exec_diag h] at hchanged
  cases huses : usesDiag i with
  | false => simp [huses] at hchanged
  | true =>
    by_contra hnot
    have hd : s.diag ≠ .unresolved := fun hd => hnot ⟨hd, rfl⟩
    rw [huses, if_pos rfl, diagInForce_of_resolved hd] at hchanged
    exact hchanged rfl

/-- A step that is no reset and no operation changes no register. -/
theorem step_registers {s t : State} (h : step s = .next t) :
    (∃ rest, s.inputs = .reset :: rest) ∨
      (∃ r w rest i, s.inputs = .request r w :: rest ∧ decode w = .ok i ∧
        exec i { s with inputs := rest, client := r } = .next t) ∨
      t.policy = s.policy ∧ t.diag = s.diag ∧ t.fault = s.fault := by
  obtain ⟨-, -, rfl⟩ | ⟨k, a, rest, -, rfl⟩ | ⟨rest, hs, -⟩ | ⟨r, w, rest, i, hs, hw, -, hexec⟩ := step_cases h
  · exact .inr (.inr ⟨rfl, rfl, rfl⟩)
  · exact .inr (.inr ⟨State.setCfg_policy _ k a, State.setCfg_diag _ k a, State.setCfg_fault _ k a⟩)
  · exact .inl ⟨rest, hs⟩
  · exact .inr (.inl ⟨r, w, rest, i, hs, hw, hexec⟩)

/-- Settles O60: a step that is no reset changes a register only by an operation that resolves it or raises. -/
theorem onlyNamedTransitionsWriteRegisters : Obligations.OnlyNamedTransitionsWriteRegisters := by
  unfold Obligations.OnlyNamedTransitionsWriteRegisters
  intro s t h
  obtain hreset | ⟨r, w, rest, i, hs, hw, hexec⟩ | ⟨hpolicy, hdiag, hfault⟩ := step_registers h
  · exact ⟨fun _ => .inl hreset, fun _ => .inl hreset, fun _ => .inl hreset⟩
  · refine ⟨fun hchanged => .inr ?_, fun hchanged => .inr ?_, fun hchanged => .inr ?_⟩
    · obtain ⟨hp, huses⟩ := exec_changes_policy hexec hchanged
      refine ⟨hp, r, w, rest, hs, ?_⟩
      obtain rfl | ⟨x, m, sh, rfl⟩ := (usesPolicy_iff i).1 huses
      · exact .inl hw
      · exact .inr ⟨x, m, sh, hw⟩
    · obtain ⟨hd, huses⟩ := exec_changes_diag hexec hchanged
      refine ⟨hd, r, w, rest, hs, ?_⟩
      obtain rfl | ⟨x, m, sh, rfl⟩ := (usesDiag_iff i).1 huses
      · exact .inl hw
      · exact .inr ⟨x, m, sh, hw⟩
    · obtain ⟨v, -, hfault⟩ | ⟨e, hresponses, hfault⟩ := exec_answers hexec
      · exact absurd hfault hchanged
      · have hgood := exec_next_good hexec
        exact ⟨hgood, r, e, hfault, hresponses⟩
  · exact ⟨fun hchanged => absurd hpolicy hchanged, fun hchanged => absurd hdiag hchanged,
      fun hchanged => absurd hfault hchanged⟩

end Sys2Proof.Machine
end
